-- ==== Sys2Proof/Word.lean ====
section
/-! DEFINITION. Word.lean: the machine's word types (spec/00_scope.md rules R6 and R8). Every value is unsigned;
the hardware has no signed quantity anywhere. -/

namespace Sys2Proof

/-- An 8-bit value: a general register, a timer or a cell of guest memory (rules R30, R37, R80). -/
abbrev Byte := BitVec 8

/-- A 16-bit value: the program counter, the index register, a stack entry or an instruction word
(rules R32, R35, R36, R110). -/
abbrev Word := BitVec 16

/-- The number of a general register, `V0` to `VF` (rules R30 and R112: all 16 values are legal). -/
abbrev Reg := Fin 16

/-- `VF`, the register that doubles as the carry, borrow, shift-out and collision flag (rule R31). -/
abbrev VF : Reg := 15

/-- A key code 0x0 to 0xF (rule R40). -/
abbrev Key := BitVec 4

/-- One framebuffer row: 64 one-bit pixels, the leftmost (column 0) the most significant bit, as the sprite
rows are "drawn MSB-first left-to-right" (rules R39 and R83; the packing is log entry 12). -/
abbrev FrameRow := BitVec 64

end Sys2Proof
end

