-- ==== Sys2Proof/Config.lean ====
section
/-! DEFINITION. Config.lean: the implementation parameters (spec/00_scope.md rules R6 and R7) and the free values. -/

namespace Sys2Proof

/-- `SHIFT_SRC` (rule R7, decision D4): whether `8xy6` and `8xyE` copy `V[y]` into `V[x]` before shifting. -/
inductive ShiftSrc where
  /-- `V[x] <- V[y]` comes first: the form the source's table writes, and the spec's default. -/
  | vy
  /-- `V[x]` is shifted in place and the `y` field is ignored. -/
  | vx
  deriving DecidableEq, Repr

/-- `DRAW_EDGE` (rule R7, decision D5): what `Dxyn` does with a sprite pixel past the right or bottom edge. -/
inductive DrawEdge where
  /-- Each axis wraps on its own: the spec's default. -/
  | wrap
  /-- The pixel is neither drawn nor tested for collision. -/
  | clip
  deriving DecidableEq, Repr

/-- The parameters of rule R7 that the engine's rules read, "fixed for a whole run and not writable by a
program" (rule R41). `FONT_DATA` is an argument of the loader alone (rule R305), `rand` is `Config.freeByte`,
and no rule depends on `PACING`. -/
structure Params where
  /-- `SHIFT_SRC`. -/
  shiftSrc : ShiftSrc
  /-- `DRAW_EDGE`. -/
  drawEdge : DrawEdge
  /-- `STACK_DEPTH`: a number of entries, at least 1, or `none` for `unbounded`. -/
  stackDepth : Option Nat
  deriving DecidableEq, Repr

/-- The spec's default of each parameter (rule R7): `vy`, `wrap`, `unbounded`. -/
def Params.default : Params := { shiftSrc := .vy, drawEdge := .wrap, stackDepth := none }

namespace Config

/-- `MEM_SIZE` (rule R6): bytes of guest memory, addresses 0x000 to 0xFFF. -/
abbrev memSize : Nat := 4096

/-- `PROG_BASE` (rule R6): the first address of program bytes, and the reset value of `pc`. -/
abbrev progBase : Nat := 0x200

/-- `FONT_BASE` (rule R6): the base address of the glyph font. -/
abbrev fontBase : Nat := 0x050

/-- `FONT_LEN` (rule R6): 16 glyphs of 5 bytes. -/
abbrev fontLen : Nat := 80

/-- `MAX_PROGRAM` (rule R6): the largest raw program the loader accepts, 4096 - 0x200 bytes. -/
abbrev maxProgram : Nat := memSize - progBase

/-- `FB_COLS` (rule R6). -/
abbrev fbCols : Nat := 64

/-- `FB_ROWS` (rule R6). -/
abbrev fbRows : Nat := 32

/-- `rand` (rules R7 and R175, decision D13): the byte that the `k`-th draw of a run returns. It has no body,
so nothing constrains it: a claim about `Cxnn` holds for every generator. Log entry 3. -/
opaque freeByte : Nat → Byte

/-- The default of `FONT_DATA` (rule R305): the usual hexadecimal glyphs 0 to F, 5 rows each. PRESUMED: the
spec itself marks these bytes as general knowledge (log entry 13). No rule of the engine reads them. -/
def fontDefault : Vector Byte fontLen := #v[
  0xF0, 0x90, 0x90, 0x90, 0xF0,  0x20, 0x60, 0x20, 0x20, 0x70,
  0xF0, 0x10, 0xF0, 0x80, 0xF0,  0xF0, 0x10, 0xF0, 0x10, 0xF0,
  0x90, 0x90, 0xF0, 0x10, 0x10,  0xF0, 0x80, 0xF0, 0x10, 0xF0,
  0xF0, 0x80, 0xF0, 0x90, 0xF0,  0xF0, 0x10, 0x20, 0x40, 0x40,
  0xF0, 0x90, 0xF0, 0x90, 0xF0,  0xF0, 0x90, 0xF0, 0x10, 0xF0,
  0xF0, 0x90, 0xF0, 0x90, 0x90,  0xE0, 0x90, 0xE0, 0x90, 0xE0,
  0xF0, 0x80, 0x80, 0x80, 0xF0,  0xE0, 0x90, 0x90, 0x90, 0xE0,
  0xF0, 0x80, 0xF0, 0x80, 0xF0,  0xF0, 0x80, 0xF0, 0x80, 0x80]

end Config

end Sys2Proof
end

