-- ==== Sys2Proof/Syntax.lean ====
section
/-! DEFINITION. Syntax.lean: the 32 instructions of the opcode map (spec/30_encoding.md rule R115), one
constructor per row of spec/opcode_table.json, in the table's order. An operand has exactly the width of its
field (rule R111), so every term is an instruction. -/

namespace Sys2Proof

/-- An instruction with its operand fields decoded (rules R111 to R113 and R115). -/
inductive Instr where
  /-- `00E0`, clear the framebuffer (rule R210). -/
  | cls
  /-- `00EE`, return (rule R142). -/
  | ret
  /-- `1nnn`, jump (rule R141). -/
  | jp (nnn : BitVec 12)
  /-- `2nnn`, call (rule R143). -/
  | call (nnn : BitVec 12)
  /-- `3xnn`, skip if register equals immediate (rule R144). -/
  | seVxNn (x : Reg) (nn : Byte)
  /-- `4xnn`, skip if register differs from immediate (rule R145). -/
  | sneVxNn (x : Reg) (nn : Byte)
  /-- `5xy0`, skip if registers are equal (rule R146). -/
  | seVxVy (x y : Reg)
  /-- `6xnn`, load immediate (rule R161). -/
  | ldVxNn (x : Reg) (nn : Byte)
  /-- `7xnn`, add immediate (rule R162). -/
  | addVxNn (x : Reg) (nn : Byte)
  /-- `8xy0`, copy (rule R163). -/
  | ldVxVy (x y : Reg)
  /-- `8xy1`, bitwise or (rule R164). -/
  | or (x y : Reg)
  /-- `8xy2`, bitwise and (rule R165). -/
  | and (x y : Reg)
  /-- `8xy3`, bitwise exclusive or (rule R166). -/
  | xor (x y : Reg)
  /-- `8xy4`, add with carry out (rule R167). -/
  | addVxVy (x y : Reg)
  /-- `8xy5`, subtract, flag on greater (rule R168). -/
  | sub (x y : Reg)
  /-- `8xy6`, shift right by one (rule R169). -/
  | shr (x y : Reg)
  /-- `8xy7`, reverse subtract, flag on greater (rule R170). -/
  | subn (x y : Reg)
  /-- `8xyE`, shift left by one (rule R171). -/
  | shl (x y : Reg)
  /-- `9xy0`, skip if registers differ (rule R148). -/
  | sneVxVy (x y : Reg)
  /-- `Annn`, load index (rule R190). -/
  | ldINnn (nnn : BitVec 12)
  /-- `Bnnn`, jump with offset `V[0]` (rule R147). -/
  | jpV0 (nnn : BitVec 12)
  /-- `Cxnn`, random byte under mask (rule R175). -/
  | rnd (x : Reg) (nn : Byte)
  /-- `Dxyn`, draw a sprite of `n` rows (rule R212). -/
  | drw (x y : Reg) (n : Fin 16)
  /-- `Fx07`, read the delay timer (rule R230). -/
  | ldVxDt (x : Reg)
  /-- `Fx0A`, wait for a held key (rule R233). -/
  | ldVxK (x : Reg)
  /-- `Fx15`, write the delay timer (rule R231). -/
  | ldDtVx (x : Reg)
  /-- `Fx18`, write the sound timer (rule R232). -/
  | ldStVx (x : Reg)
  /-- `Fx1E`, add register to index (rule R191). -/
  | addIVx (x : Reg)
  /-- `Fx29`, point index at a font glyph (rule R192). -/
  | ldFVx (x : Reg)
  /-- `Fx33`, store binary-coded decimal (rule R193). -/
  | ldBVx (x : Reg)
  /-- `Fx55`, store the register block `V[0]` to `V[x]` (rule R194). -/
  | ldMemVx (x : Reg)
  /-- `Fx65`, load the register block `V[0]` to `V[x]` (rule R195). -/
  | ldVxMem (x : Reg)
  deriving DecidableEq, Repr

end Sys2Proof
end

