-- ==== Sys2Proof/WellFormed.lean ====
section
/-! DEFINITION. WellFormed.lean: which instructions, parameters and images the spec admits. An instruction's
operand types already have the widths of its fields, so no instruction is ill-formed; the parameters and the
images carry the checks. -/

namespace Sys2Proof

/-- Every value of every operand field is legal (rules R112, R113 and R161: "every `x` and `nn` is legal"); the
widths stand in the types. -/
def Instr.wellFormed : Instr → Bool
  | .cls => true
  | .ret => true
  | .jp _ => true
  | .call _ => true
  | .seVxNn _ _ => true
  | .sneVxNn _ _ => true
  | .seVxVy _ _ => true
  | .ldVxNn _ _ => true
  | .addVxNn _ _ => true
  | .ldVxVy _ _ => true
  | .or _ _ => true
  | .and _ _ => true
  | .xor _ _ => true
  | .addVxVy _ _ => true
  | .sub _ _ => true
  | .shr _ _ => true
  | .subn _ _ => true
  | .shl _ _ => true
  | .sneVxVy _ _ => true
  | .ldINnn _ => true
  | .jpV0 _ => true
  | .rnd _ _ => true
  | .drw _ _ _ => true
  | .ldVxDt _ => true
  | .ldVxK _ => true
  | .ldDtVx _ => true
  | .ldStVx _ => true
  | .addIVx _ => true
  | .ldFVx _ => true
  | .ldBVx _ => true
  | .ldMemVx _ => true
  | .ldVxMem _ => true

/-- `STACK_DEPTH` is a number of at least 1, or `unbounded` (rule R7). -/
def Params.wellFormed (p : Params) : Bool :=
  match p.stackDepth with
  | none => true
  | some d => decide (1 ≤ d)

/-- What the engine's `load` accepts: at most 4096 bytes (rule R303). -/
def imageWellFormed (image : List Byte) : Bool := decide (image.length ≤ Config.memSize)

/-- What the loader accepts: a raw program of at most 4096 - 0x200 bytes (rule R304). -/
def programWellFormed (program : List Byte) : Bool := decide (program.length ≤ Config.maxProgram)

end Sys2Proof
end

