-- ==== Sys2Proof/Decode.lean ====
section
/-! DEFINITION. Decode.lean: the decoder, total on every word, and the encoder, both from the opcode map of
spec/30_encoding.md (rules R110 to R119). -/

namespace Sys2Proof

/-- Why bytes are no instruction: the rows of rule R119, by opcode class, and a byte list too short for the one
instruction length there is (rule R110). -/
inductive DecodeError where
  /-- `0nnn` other than `00E0` and `00EE`. -/
  | illegalClass0
  /-- `5xyn` with `n ≠ 0`. -/
  | illegalClass5
  /-- `8xyn` with `n` in 8 to D, or F. -/
  | illegalClass8
  /-- `9xyn` with `n ≠ 0`. -/
  | illegalClass9
  /-- Every `Ennn`. -/
  | illegalClassE
  /-- `Fxnn` with an unlisted `nn`. -/
  | illegalClassF
  /-- Fewer than 2 bytes. -/
  | truncated
  deriving DecidableEq, Repr

/-- `class = w[15:12]` (rule R111). -/
def classField (w : Word) : Nat := w.toNat / 4096

/-- `x = w[11:8]` (rule R111), a register number. -/
def xField (w : Word) : Reg := Fin.ofNat 16 (w.toNat / 256)

/-- `y = w[7:4]` (rule R111), a register number. -/
def yField (w : Word) : Reg := Fin.ofNat 16 (w.toNat / 16)

/-- `n = w[3:0]` (rule R111). -/
def nField (w : Word) : Fin 16 := Fin.ofNat 16 w.toNat

/-- `nn = w[7:0]` (rule R111). -/
def nnField (w : Word) : Byte := BitVec.ofNat 8 w.toNat

/-- `nnn = w[11:0]` (rule R111). -/
def nnnField (w : Word) : BitVec 12 := BitVec.ofNat 12 w.toNat

/-- Class 0x0: the discriminant is the whole word (rule R114, decision D9). -/
def decodeClass0 (w : Word) : Except DecodeError Instr :=
  if w = 0x00E0 then .ok .cls
  else if w = 0x00EE then .ok .ret
  else .error .illegalClass0

/-- Class 0x8: the discriminant is `n` (rule R114). -/
def decodeClass8 (w : Word) : Except DecodeError Instr :=
  match (nField w).val with
  | 0x0 => .ok (.ldVxVy (xField w) (yField w))
  | 0x1 => .ok (.or (xField w) (yField w))
  | 0x2 => .ok (.and (xField w) (yField w))
  | 0x3 => .ok (.xor (xField w) (yField w))
  | 0x4 => .ok (.addVxVy (xField w) (yField w))
  | 0x5 => .ok (.sub (xField w) (yField w))
  | 0x6 => .ok (.shr (xField w) (yField w))
  | 0x7 => .ok (.subn (xField w) (yField w))
  | 0xE => .ok (.shl (xField w) (yField w))
  | _ => .error .illegalClass8

/-- Class 0xF: the discriminant is `nn` (rule R114). -/
def decodeClassF (w : Word) : Except DecodeError Instr :=
  match (nnField w).toNat with
  | 0x07 => .ok (.ldVxDt (xField w))
  | 0x0A => .ok (.ldVxK (xField w))
  | 0x15 => .ok (.ldDtVx (xField w))
  | 0x18 => .ok (.ldStVx (xField w))
  | 0x1E => .ok (.addIVx (xField w))
  | 0x29 => .ok (.ldFVx (xField w))
  | 0x33 => .ok (.ldBVx (xField w))
  | 0x55 => .ok (.ldMemVx (xField w))
  | 0x65 => .ok (.ldVxMem (xField w))
  | _ => .error .illegalClassF

/-- The instruction a word selects (rules R114 and R115), or why it is illegal (rules R118 and R119). -/
def decodeWord (w : Word) : Except DecodeError Instr :=
  match classField w with
  | 0x0 => decodeClass0 w
  | 0x1 => .ok (.jp (nnnField w))
  | 0x2 => .ok (.call (nnnField w))
  | 0x3 => .ok (.seVxNn (xField w) (nnField w))
  | 0x4 => .ok (.sneVxNn (xField w) (nnField w))
  | 0x5 => if nField w = 0 then .ok (.seVxVy (xField w) (yField w)) else .error .illegalClass5
  | 0x6 => .ok (.ldVxNn (xField w) (nnField w))
  | 0x7 => .ok (.addVxNn (xField w) (nnField w))
  | 0x8 => decodeClass8 w
  | 0x9 => if nField w = 0 then .ok (.sneVxVy (xField w) (yField w)) else .error .illegalClass9
  | 0xA => .ok (.ldINnn (nnnField w))
  | 0xB => .ok (.jpV0 (nnnField w))
  | 0xC => .ok (.rnd (xField w) (nnField w))
  | 0xD => .ok (.drw (xField w) (yField w) (nField w))
  | 0xE => .error .illegalClassE
  | _ => decodeClassF w

/-- Big-endian combination: the first byte is bits 15 to 8 of the word (rule R83). -/
def wordOfBytes (hi lo : Byte) : Word := hi ++ lo

/-- The two bytes of a word in the order they lie in memory (rule R83). -/
def bytesOfWord (w : Word) : Byte × Byte := (w.extractLsb' 8 8, w.extractLsb' 0 8)

/-- Decode the instruction at the head of a byte list; the rest of the list comes back (rule R110: always 2
bytes). -/
def decodeBytes : List Byte → Except DecodeError (Instr × List Byte)
  | hi :: lo :: rest => (decodeWord (wordOfBytes hi lo)).map (fun i => (i, rest))
  | _ => .error .truncated

/-- A word from its row's `match` value and its fields `x` and `nn` (rule R115). -/
def wordXNn (base : Nat) (x : Reg) (nn : Byte) : Word := BitVec.ofNat 16 (base + 256 * x.val + nn.toNat)

/-- A word from its row's `match` value and its fields `x` and `y` (rule R115). -/
def wordXY (base : Nat) (x y : Reg) : Word := BitVec.ofNat 16 (base + 256 * x.val + 16 * y.val)

/-- A word from its row's `match` value and its field `nnn` (rule R115). -/
def wordNnn (base : Nat) (nnn : BitVec 12) : Word := BitVec.ofNat 16 (base + nnn.toNat)

/-- A word from its row's `match` value and its field `x` (rule R115). -/
def wordX (base : Nat) (x : Reg) : Word := BitVec.ofNat 16 (base + 256 * x.val)

/-- The word of an instruction: its row's `match` value of rule R115 with the fields in place. -/
def encode : Instr → Word
  | .cls => 0x00E0
  | .ret => 0x00EE
  | .jp nnn => wordNnn 0x1000 nnn
  | .call nnn => wordNnn 0x2000 nnn
  | .seVxNn x nn => wordXNn 0x3000 x nn
  | .sneVxNn x nn => wordXNn 0x4000 x nn
  | .seVxVy x y => wordXY 0x5000 x y
  | .ldVxNn x nn => wordXNn 0x6000 x nn
  | .addVxNn x nn => wordXNn 0x7000 x nn
  | .ldVxVy x y => wordXY 0x8000 x y
  | .or x y => wordXY 0x8001 x y
  | .and x y => wordXY 0x8002 x y
  | .xor x y => wordXY 0x8003 x y
  | .addVxVy x y => wordXY 0x8004 x y
  | .sub x y => wordXY 0x8005 x y
  | .shr x y => wordXY 0x8006 x y
  | .subn x y => wordXY 0x8007 x y
  | .shl x y => wordXY 0x800E x y
  | .sneVxVy x y => wordXY 0x9000 x y
  | .ldINnn nnn => wordNnn 0xA000 nnn
  | .jpV0 nnn => wordNnn 0xB000 nnn
  | .rnd x nn => wordXNn 0xC000 x nn
  | .drw x y n => BitVec.ofNat 16 (0xD000 + 256 * x.val + 16 * y.val + n.val)
  | .ldVxDt x => wordX 0xF007 x
  | .ldVxK x => wordX 0xF00A x
  | .ldDtVx x => wordX 0xF015 x
  | .ldStVx x => wordX 0xF018 x
  | .addIVx x => wordX 0xF01E x
  | .ldFVx x => wordX 0xF029 x
  | .ldBVx x => wordX 0xF033 x
  | .ldMemVx x => wordX 0xF055 x
  | .ldVxMem x => wordX 0xF065 x

/-- The bytes of an instruction as they lie in memory (rules R83 and R110). -/
def encodeBytes (i : Instr) : List Byte := [(bytesOfWord (encode i)).1, (bytesOfWord (encode i)).2]

/-- One row's mask and match of the opcode map: a word selects the row when `w &&& mask = pattern`. -/
structure OpcodeRow where
  /-- The mask column. -/
  mask : Word
  /-- The match column. -/
  pattern : Word
  deriving DecidableEq, Repr

/-- The mask and match columns of rule R115's table, row by row; a second reading of the opcode map beside
`decodeWord`, which the statements compare with it. -/
def opcodeMap : List OpcodeRow := [
  ⟨0xFFFF, 0x00E0⟩, ⟨0xFFFF, 0x00EE⟩, ⟨0xF000, 0x1000⟩, ⟨0xF000, 0x2000⟩, ⟨0xF000, 0x3000⟩, ⟨0xF000, 0x4000⟩,
  ⟨0xF00F, 0x5000⟩, ⟨0xF000, 0x6000⟩, ⟨0xF000, 0x7000⟩, ⟨0xF00F, 0x8000⟩, ⟨0xF00F, 0x8001⟩, ⟨0xF00F, 0x8002⟩,
  ⟨0xF00F, 0x8003⟩, ⟨0xF00F, 0x8004⟩, ⟨0xF00F, 0x8005⟩, ⟨0xF00F, 0x8006⟩, ⟨0xF00F, 0x8007⟩, ⟨0xF00F, 0x800E⟩,
  ⟨0xF00F, 0x9000⟩, ⟨0xF000, 0xA000⟩, ⟨0xF000, 0xB000⟩, ⟨0xF000, 0xC000⟩, ⟨0xF000, 0xD000⟩, ⟨0xF0FF, 0xF007⟩,
  ⟨0xF0FF, 0xF00A⟩, ⟨0xF0FF, 0xF015⟩, ⟨0xF0FF, 0xF018⟩, ⟨0xF0FF, 0xF01E⟩, ⟨0xF0FF, 0xF029⟩, ⟨0xF0FF, 0xF033⟩,
  ⟨0xF0FF, 0xF055⟩, ⟨0xF0FF, 0xF065⟩]

/-- A word selects a row when its masked bits are the row's match value (rule R115). -/
def OpcodeRow.selects (r : OpcodeRow) (w : Word) : Bool := w &&& r.mask == r.pattern

/-- What the decoder reads from an instruction whose bits are `w`, numbered as spec/opcode_table.json numbers
them (bit 0 the least significant of the one word, rule R8): the word is laid out big-endian and decoded. -/
def decodeTableWord (nbits w : Nat) : Option Instr :=
  match decodeBytes [(bytesOfWord (BitVec.ofNat 16 (w % 2 ^ nbits))).1, (bytesOfWord (BitVec.ofNat 16 (w % 2 ^ nbits))).2] with
  | .ok (i, _) => some i
  | .error _ => none

end Sys2Proof
end

