-- ==== Sys2Proof/Machine/State.lean ====
section
/-! DEFINITION. Machine/State.lean: the machine's whole state as plain data (spec/10_state.md), its reset value
(rule R52), and the reasons an operation can stop. -/

namespace Sys2Proof.Machine

/-- Guest memory (rules R38 and R80): the cells that hold something other than `Memory.unlisted`, by strictly
rising address. `Memory.wf` (Machine/Ops.lean) says that form. -/
abbrev Memory := List Host.Cell

/-- What an unlisted address reads as: 0, the reset contents of every byte (rule R52). -/
def Memory.unlisted : Byte := 0

/-- The framebuffer `FB` (rule R39): 32 rows of 64 one-bit pixels, row 0 at the top. -/
abbrev Frame := Vector FrameRow 32

/-- A fault record, the contents of the fault latch (rules R44 and R250): the kind, with the information that
rule R250 gives it. -/
inductive FaultRecord where
  /-- Code 1: the `pc` that could not be fetched (rule R251). -/
  | pcOutOfBounds (pc : Word)
  /-- Code 2: the word that matches no row and the address it was fetched from (rule R252). -/
  | illegalInstruction (w ipc : Word)
  /-- Code 3: the address of a `00EE` that found the stack empty (rule R253). -/
  | stackEmpty (ipc : Word)
  /-- Code 4: the lowest address of a data access that lies at 4096 or above (rule R254). -/
  | memOutOfBounds (addr : Word)
  /-- Code 5: the address of a `2nnn` that found the stack full (rule R255). -/
  | stackOverflow (ipc : Word)
  deriving DecidableEq, Repr

/-- The machine's state. Each field names the rule of the spec that gives it; the last two are the model's own
(log entries 2 and 3). -/
structure State where
  /-- `V[0]` to `V[15]` (rule R30); `V[15]` is `VF` (rule R31). -/
  v : Vector Byte 16
  /-- `pc` (rule R32): between steps the address of the next word, during the execute phase `ipc + 2`. -/
  pc : Word
  /-- `I`, the index register (rule R35). -/
  i : Word
  /-- The call stack, last element on top (rules R9 and R36). -/
  stack : List Word
  /-- `DT`, the delay timer (rule R37). -/
  dt : Byte
  /-- `ST`, the sound timer (rule R37). -/
  st : Byte
  /-- `mem`, guest memory (rule R38). -/
  mem : Memory
  /-- `FB`, the framebuffer (rule R39). -/
  fb : Frame
  /-- `key`, the key cell (rule R40). -/
  key : Option Key
  /-- `fault`, the fault latch (rule R44). -/
  fault : Option FaultRecord
  /-- The parameters of rule R7, which no instruction writes (rule R41; log entry 2). -/
  params : Params
  /-- The model's own count of the bytes drawn so far, so that every draw is a fresh one (log entry 3). -/
  draws : Nat
  deriving DecidableEq, Repr

/-- Why an operation stops with a host fault. No step ever does: the machine's five faults are fault records in
the latch, and the step that raises one answers a next state (log entry 1). -/
inductive Fault where
  /-- Raised by the `load` port and by the loader, before any step, when the image or the raw program has `size`
  bytes, more than fits (rules R259, R303 and R304: "a fatal configuration error at load time"). Safe: nothing
  has run, and the core is left unstarted. -/
  | programTooLarge (size : Nat)
  deriving DecidableEq, Repr

/-- Why an operation is refused. No step ever is. -/
inductive Refusal where
  /-- Raised by exec's arm of an instruction that has no meaning yet. Safe: nothing is claimed of it. -/
  | notModelled (mnemonic : String)
  /-- Raised by the `load` port outside the window between `reset` and the first step (rule R303, decision D20).
  Safe: the spec gives such a load no effect. -/
  | loadOutsideWindow
  /-- Raised by the debug controller when a command comes in a state for which section 7 of
  spec/60_exceptions.md gives it no transition (N12). Safe: host side only. -/
  | commandNotTaken
  /-- Raised by the debug controller when `disassemble` names an address whose two bytes do not both lie in
  memory; the spec gives no result (rule R276). Safe: host side only. -/
  | noWordAtAddress
  deriving DecidableEq, Repr

/-- The state after reset under given parameters and with `draws` bytes drawn before it (rules R52 and R300). -/
def State.resetWith (params : Params) (draws : Nat) : State where
  v := Vector.replicate 16 0
  pc := 0x200
  i := 0
  stack := []
  dt := 0
  st := 0
  mem := []
  fb := Vector.replicate 32 0
  key := none
  fault := none
  params := params
  draws := draws

/-- The machine right after reset (rule R52), under the spec's default parameters (rule R7; log entry 2) and
with no byte drawn yet (log entry 3). -/
def State.reset : State := State.resetWith Params.default 0

end Sys2Proof.Machine
end

