-- ==== Sys2Proof/Machine/Ops.lean ====
section
/-! DEFINITION. Machine/Ops.lean: the named operations over registers, memory, stack and framebuffer; fetching a
word; and raising a fault, the machine's one kind of exception. -/

namespace Sys2Proof.Machine

/-! ### Memory as a canonical list of cells (rule R80) -/

/-- The byte at an address: the listed one, else what an unlisted address reads as. -/
def Memory.read : Memory → Nat → Byte
  | [], _ => Memory.unlisted
  | (b, u) :: rest, a => if b = a then u else Memory.read rest a

/-- Set the byte at an address and keep the canonical form: writing what an unlisted address reads as removes the
entry. -/
def Memory.write : Memory → Nat → Byte → Memory
  | [], a, v => if v = Memory.unlisted then [] else [(a, v)]
  | (b, u) :: rest, a, v =>
    if a < b then (if v = Memory.unlisted then (b, u) :: rest else (a, v) :: (b, u) :: rest)
    else if a = b then (if v = Memory.unlisted then rest else (a, v) :: rest)
    else (b, u) :: Memory.write rest a v

/-- Every cell lies at `lo` or above and inside memory, addresses strictly rise, and no cell holds what an
unlisted address reads as. -/
def Memory.wfFrom : Nat → Memory → Bool
  | _, [] => true
  | lo, (a, v) :: rest =>
    decide (lo ≤ a) && decide (a < Config.memSize) && decide (v ≠ Memory.unlisted) && Memory.wfFrom (a + 1) rest

/-- The canonical form of memory. -/
def Memory.wf (m : Memory) : Bool := Memory.wfFrom 0 m

/-! ### One home for each piece of state -/

/-- `V[x]` (rule R30). -/
def State.getV (s : State) (x : Reg) : Byte := s.v[x]

/-- `V[x] <- b` (rule R30). -/
def State.setV (s : State) (x : Reg) (b : Byte) : State := { s with v := s.v.set x b }

/-- `pc <- target` (rule R10). -/
def State.setPc (s : State) (target : Word) : State := { s with pc := target }

/-- `I <- w` (rule R35). -/
def State.setI (s : State) (w : Word) : State := { s with i := w }

/-- `DT <- b` (rule R37). -/
def State.setDt (s : State) (b : Byte) : State := { s with dt := b }

/-- `ST <- b` (rule R37). -/
def State.setSt (s : State) (b : Byte) : State := { s with st := b }

/-- The call stack becomes `l` (rule R36). -/
def State.setStack (s : State) (l : List Word) : State := { s with stack := l }

/-- The framebuffer becomes `f` (rule R39). -/
def State.setFb (s : State) (f : Frame) : State := { s with fb := f }

/-- `key <- k` (rule R47). -/
def State.setKey (s : State) (k : Option Key) : State := { s with key := k }

/-- `MemRead(a, 1)` (rule R84): callers have checked `a` against 4096 (rules R86 and R87; log entry 19). -/
def State.memRead (s : State) (a : Nat) : Byte := s.mem.read a

/-- `MemWrite(a, 1, v)` (rule R85): callers have checked `a` against 4096, and nothing exists to be written
above it (log entry 19). -/
def State.memWrite (s : State) (a : Nat) (v : Byte) : State :=
  if a < Config.memSize then { s with mem := s.mem.write a v } else s

/-- Write bytes at rising addresses from `a` on, in that order. -/
def State.memWriteList (s : State) (a : Nat) : List Byte → State
  | [] => s
  | b :: rest => (s.memWrite a b).memWriteList (a + 1) rest

/-- The 16-bit word at an address, big-endian (rule R83). -/
def State.wordAt (s : State) (a : Nat) : Word := wordOfBytes (s.memRead a) (s.memRead (a + 1))

/-- `draw_rand()` (rules R10 and R175): the next free byte, and the count advanced so that the next draw is a
fresh one. -/
def State.draw (s : State) : Byte × State := (Config.freeByte s.draws, { s with draws := s.draws + 1 })

/-! ### Taking a fault (rule R256) -/

/-- `raise K(info)`: `fault <- (K, info)` and nothing else. -/
def State.raise (s : State) (f : FaultRecord) : State := { s with fault := some f }

/-- The code of a fault record (rule R250). -/
def FaultRecord.code : FaultRecord → Nat
  | .pcOutOfBounds _ => 1
  | .illegalInstruction _ _ => 2
  | .stackEmpty _ => 3
  | .memOutOfBounds _ => 4
  | .stackOverflow _ => 5

/-- `ipc`, the address the executing word was fetched from, seen from the execute phase, where `pc = ipc + 2`
(rules R11 and R50). -/
def State.ipc (s : State) : Word := s.pc - 2

/-! ### The fetch phase (rules R50 and R87) -/

/-- Fetch the word at `pc` and advance `pc` by 2, or say which fault the fetch raises. -/
def State.fetch (s : State) : Except FaultRecord (Word × State) :=
  if s.pc.toNat ≥ 4096 then .error (.pcOutOfBounds s.pc)
  else if s.pc.toNat = 4095 then .error (.pcOutOfBounds s.pc)
  else .ok (s.wordAt s.pc.toNat, s.setPc (s.pc + 2))

/-! ### The data bounds check (rule R86) -/

/-- The bounds check of an access to the `k` bytes at `I`: the lowest address of the range that is 4096 or more,
if there is one. The sum is exact. -/
def State.outOfBounds (s : State) (k : Nat) : Option Word :=
  if 1 ≤ k ∧ s.i.toNat + k - 1 ≥ Config.memSize then some (BitVec.ofNat 16 (max s.i.toNat Config.memSize)) else none

/-- Check the `k` bytes at `I`, then do `act`; a failed check raises `MemOutOfBounds` and nothing is read or
written. -/
def State.withBlock (s : State) (k : Nat) (act : State → State) : State :=
  match s.outOfBounds k with
  | some a => s.raise (.memOutOfBounds a)
  | none => act s

/-! ### The framebuffer (rules R39, R211 and R212) -/

/-- `FB[r][c]`: column 0 is the most significant bit of the row. -/
def Frame.pixel (f : Frame) (r : Fin 32) (c : Fin 64) : Bool := (f[r]).getMsbD c.val

/-- `FB[r][c] <- FB[r][c] xor 1`. -/
def Frame.toggle (f : Frame) (r : Fin 32) (c : Fin 64) : Frame :=
  f.set r (f[r] ^^^ BitVec.twoPow 64 (63 - c.val))

/-- `place(px, py)` of rule R211: the row and column a raw position goes to, if any. -/
def place (edge : DrawEdge) (px py : Nat) : Option (Fin 32 × Fin 64) :=
  match edge with
  | .wrap => some (Fin.ofNat 32 py, Fin.ofNat 64 px)
  | .clip => if px ≥ 64 ∨ py ≥ 32 then none else some (Fin.ofNat 32 py, Fin.ofNat 64 px)

/-- One sprite pixel of rule R212's inner loop: the frame and `hit` after sprite column `c` of the row byte `b`,
whose raw position is column `px`, row `py`. -/
def drawPixel (edge : DrawEdge) (b : Byte) (c px py : Nat) (acc : Frame × Bool) : Frame × Bool :=
  if b.getLsbD (7 - c) then
    match place edge px py with
    | none => acc
    | some (row, col) => (acc.1.toggle row col, acc.2 || acc.1.pixel row col)
  else acc

/-- One sprite row of rule R212: columns 0 to 7 of the byte `b`, the leftmost at raw column `x0`. -/
def drawRow (edge : DrawEdge) (b : Byte) (x0 py : Nat) (acc : Frame × Bool) : Frame × Bool :=
  (List.range 8).foldl (fun acc c => drawPixel edge b c (x0 + c) py acc) acc

/-- The loops of rule R212: `n` rows whose bytes `row` gives, the top-left pixel at column `x0`, row `y0`; the
frame after, and `hit`. -/
def drawSprite (edge : DrawEdge) (row : Nat → Byte) (n x0 y0 : Nat) (f : Frame) : Frame × Bool :=
  (List.range n).foldl (fun acc r => drawRow edge (row r) x0 (y0 + r) acc) (f, false)

end Sys2Proof.Machine
end

