-- ==== Sys2Proof/Machine/Operands.lean ====
section
/-! DEFINITION. Machine/Operands.lean: the operand forms of spec/30_encoding.md rules R112 and R113 and the
addresses formed from them. -/

namespace Sys2Proof.Machine

/-- `zext_16(nnn)`: a 12-bit immediate as a `pc` or `I` value, never scaled or sign-extended (rule R113). -/
def zextNnn (nnn : BitVec 12) : Word := nnn.setWidth 16

/-- `zext_16(V[x])`: a register as a 16-bit value (rules R147 and R191). -/
def zextByte (b : Byte) : Word := b.setWidth 16

/-- `zext_8(key)`: a key code as a register value (rule R233). -/
def zextKey (k : Key) : Byte := k.setWidth 8

/-- The registers `V[0]` to `V[x]`, ascending: the block of `Fx55` and `Fx65` (rule R112). -/
def blockRegs (x : Reg) : List Reg := (List.finRange 16).take (x.val + 1)

/-- `V[x] * 5 + 0x050`, the address of a glyph; the whole byte counts (rule R192, decision D24). -/
def glyphAddress (b : Byte) : Word := BitVec.ofNat 16 (b.toNat * 5 + Config.fontBase)

/-- The three decimal digits of a byte, hundreds first (rule R193). -/
def bcdDigits (b : Byte) : List Byte :=
  [BitVec.ofNat 8 (b.toNat / 100), BitVec.ofNat 8 (b.toNat / 10 % 10), BitVec.ofNat 8 (b.toNat % 10)]

/-- `x0 = V[x] mod 64`, the column of a sprite's left edge (rule R211). -/
def spriteCol (b : Byte) : Nat := b.toNat % 64

/-- `y0 = V[y] mod 32`, the row of a sprite's top edge (rule R211). -/
def spriteRow (b : Byte) : Nat := b.toNat % 32

end Sys2Proof.Machine
end

