-- ==== Sys2Proof/Machine/ControlFlow.lean ====
section
/-! DEFINITION. Machine/ControlFlow.lean: the control-transfer instructions (spec/40_control_flow.md). When an
execute phase starts, `pc` already equals `ipc + 2` (rule R140). -/

namespace Sys2Proof.Machine

/-- A skip steps over exactly one word (rules R140 and R149). -/
def State.skipIf (s : State) (c : Bool) : State := if c then s.setPc (s.pc + 2) else s

/-- Whether a push finds the stack full: only under a finite `STACK_DEPTH`, at exactly that many entries (rule R143). -/
def State.stackFull (s : State) : Bool :=
  match s.params.stackDepth with
  | none => false
  | some d => decide (s.stack.length = d)

/-- `1nnn`: `pc <- zext_16(nnn)` (rule R141). -/
def execJp (nnn : BitVec 12) (s : State) : Host.Outcome State Fault Refusal :=
  .next (s.setPc (zextNnn nnn))

/-- `00EE`: pop the stack into `pc`, or raise `StackEmpty(ipc)` (rule R142). -/
def execRet (s : State) : Host.Outcome State Fault Refusal :=
  .next (match s.stack.getLast? with
    | none => s.raise (.stackEmpty s.ipc)
    | some t => (s.setStack s.stack.dropLast).setPc t)

/-- `2nnn`: push the already advanced `pc` and jump, or raise `StackOverflow(ipc)` on a full stack (rule R143). -/
def execCall (nnn : BitVec 12) (s : State) : Host.Outcome State Fault Refusal :=
  .next (if s.stackFull then s.raise (.stackOverflow s.ipc)
    else (s.setStack (s.stack ++ [s.pc])).setPc (zextNnn nnn))

/-- `3xnn`: skip if `V[x] = nn` (rule R144). -/
def execSeVxNn (x : Reg) (nn : Byte) (s : State) : Host.Outcome State Fault Refusal :=
  .next (s.skipIf (decide (s.getV x = nn)))

/-- `4xnn`: skip if `V[x] ≠ nn` (rule R145). -/
def execSneVxNn (x : Reg) (nn : Byte) (s : State) : Host.Outcome State Fault Refusal :=
  .next (s.skipIf (decide (s.getV x ≠ nn)))

/-- `5xy0`: skip if `V[x] = V[y]` (rule R146). -/
def execSeVxVy (x y : Reg) (s : State) : Host.Outcome State Fault Refusal :=
  .next (s.skipIf (decide (s.getV x = s.getV y)))

/-- `9xy0`: skip if `V[x] ≠ V[y]` (rule R148). -/
def execSneVxVy (x y : Reg) (s : State) : Host.Outcome State Fault Refusal :=
  .next (s.skipIf (decide (s.getV x ≠ s.getV y)))

/-- `Bnnn`: `pc <- zext_16(nnn) + zext_16(V[0])`, not reduced modulo 4096 (rule R147). -/
def execJpV0 (nnn : BitVec 12) (s : State) : Host.Outcome State Fault Refusal :=
  .next (s.setPc (zextNnn nnn + zextByte (s.getV 0)))

end Sys2Proof.Machine
end

