-- ==== Sys2Proof/Machine/Flags.lean ====
section
/-! DEFINITION. Machine/Flags.lean: every value the machine writes to `VF` as a flag (spec/10_state.md rule
R31), and the 8-bit arithmetic they go with (spec/41_load_alu.md rule R172). -/

namespace Sys2Proof.Machine

/-- A flag as a register value: 1 or 0. -/
def flagByte (c : Bool) : Byte := if c then 1 else 0

/-- The carry of `8xy4`: 1 if the exact sum exceeds 255 (rule R167). -/
def carryFlag (a b : Byte) : Byte := flagByte (decide (a.toNat + b.toNat > 255))

/-- The flag of `8xy5` and `8xy7`: 1 if `a` is strictly greater than `b` (rules R168 and R170). -/
def greaterFlag (a b : Byte) : Byte := flagByte (decide (a.toNat > b.toNat))

/-- The flag of `8xy6`: bit 0 of the value being shifted (rule R169). -/
def lowBitFlag (a : Byte) : Byte := flagByte (a.getLsbD 0)

/-- The flag of `8xyE`: bit 7 of the value being shifted (rule R171). -/
def highBitFlag (a : Byte) : Byte := flagByte (a.getLsbD 7)

/-- The flag of `Dxyn`: 1 if a pixel went from 1 to 0 (rule R212). -/
def collisionFlag (hit : Bool) : Byte := flagByte hit

/-- `(a + b) mod 256` (rule R172): 8-bit addition wraps. -/
def add8 (a b : Byte) : Byte := a + b

/-- `(a - b) mod 256` (rule R172): 8-bit subtraction wraps. -/
def sub8 (a b : Byte) : Byte := a - b

/-- `a >> 1`, filling with zero (rule R169). -/
def shr8 (a : Byte) : Byte := a >>> 1

/-- `(a << 1) mod 256` (rule R171). -/
def shl8 (a : Byte) : Byte := a <<< 1

end Sys2Proof.Machine
end

