-- ==== Sys2Proof/Machine/Display.lean ====
section
/-! DEFINITION. Machine/Display.lean: the framebuffer instructions (spec/43_display.md). -/

namespace Sys2Proof.Machine

/-- `00E0`: every pixel becomes 0, `VF` is not written (rule R210). -/
def execCls (s : State) : Host.Outcome State Fault Refusal :=
  .next (s.setFb (Vector.replicate 32 0))

/-- The frame and `hit` that the loops of rule R212 leave, from the state before the instruction. -/
def State.drawn (s : State) (x y : Reg) (n : Fin 16) : Frame × Bool :=
  drawSprite s.params.drawEdge (fun r => s.memRead (s.i.toNat + r)) n.val (spriteCol (s.getV x)) (spriteRow (s.getV y)) s.fb

/-- `Dxyn`: the position is read first, the `n` sprite bytes are checked, the sprite is drawn and `VF` is written
last (rule R212, decision D25). -/
def execDrw (x y : Reg) (n : Fin 16) (s : State) : Host.Outcome State Fault Refusal :=
  .next (s.withBlock n.val (fun s => (s.setFb (s.drawn x y n).1).setV VF (collisionFlag (s.drawn x y n).2)))

end Sys2Proof.Machine
end

