-- ==== Sys2Proof/Machine/IndexMemory.lean ====
section
/-! DEFINITION. Machine/IndexMemory.lean: the index-register and memory instructions (spec/42_index_memory.md).
None writes `VF` as a flag, and the four users of `I` leave it unchanged (decision D12). -/

namespace Sys2Proof.Machine

/-- `Annn`: `I <- zext_16(nnn)` (rule R190). -/
def execLdINnn (nnn : BitVec 12) (s : State) : Host.Outcome State Fault Refusal :=
  .next (s.setI (zextNnn nnn))

/-- `Fx1E`: `I <- (I + zext_16(V[x])) mod 65536` (rule R191). -/
def execAddIVx (x : Reg) (s : State) : Host.Outcome State Fault Refusal :=
  .next (s.setI (s.i + zextByte (s.getV x)))

/-- `Fx29`: `I <- zext_16(V[x]) * 5 + 0x050` (rule R192). -/
def execLdFVx (x : Reg) (s : State) : Host.Outcome State Fault Refusal :=
  .next (s.setI (glyphAddress (s.getV x)))

/-- `Fx33`: the three digits of `V[x]` at `I`, `I + 1`, `I + 2` (rule R193). -/
def execLdBVx (x : Reg) (s : State) : Host.Outcome State Fault Refusal :=
  .next (s.withBlock 3 (fun s => s.memWriteList s.i.toNat (bcdDigits (s.getV x))))

/-- `Fx55`: `V[0]` to `V[x]` at `I` and on, ascending (rule R194). -/
def execLdMemVx (x : Reg) (s : State) : Host.Outcome State Fault Refusal :=
  .next (s.withBlock (x.val + 1) (fun s => s.memWriteList s.i.toNat ((blockRegs x).map s.getV)))

/-- The loop of rule R195: `V[r] <- MemRead(I + r, 1)` for each register of the list, in its order. -/
def State.loadRegs (s : State) : List Reg → State
  | [] => s
  | r :: rest => (s.setV r (s.memRead (s.i.toNat + r.val))).loadRegs rest

/-- `Fx65`: `V[0]` to `V[x]` from `I` and on, ascending (rule R195). -/
def execLdVxMem (x : Reg) (s : State) : Host.Outcome State Fault Refusal :=
  .next (s.withBlock (x.val + 1) (fun s => s.loadRegs (blockRegs x)))

end Sys2Proof.Machine
end

