-- ==== Sys2Proof/Machine/LoadAlu.lean ====
section
/-! DEFINITION. Machine/LoadAlu.lean: the register load, arithmetic, logic, shift and random instructions
(spec/41_load_alu.md). Each statement reads the registers as the statements before it left them (rule R160,
decision D6), which shows when `x` or `y` is 0xF (rule R173; log entry 9). -/

namespace Sys2Proof.Machine

/-- `6xnn`: `V[x] <- nn` (rule R161). -/
def execLdVxNn (x : Reg) (nn : Byte) (s : State) : Host.Outcome State Fault Refusal :=
  .next (s.setV x nn)

/-- `7xnn`: `V[x] <- (V[x] + nn) mod 256`, no carry recorded (rule R162). -/
def execAddVxNn (x : Reg) (nn : Byte) (s : State) : Host.Outcome State Fault Refusal :=
  .next (s.setV x (add8 (s.getV x) nn))

/-- `8xy0`: `V[x] <- V[y]` (rule R163). -/
def execLdVxVy (x y : Reg) (s : State) : Host.Outcome State Fault Refusal :=
  .next (s.setV x (s.getV y))

/-- `8xy1`: `V[x] <- V[x] | V[y]`, `VF` not touched as a flag (rule R164). -/
def execOr (x y : Reg) (s : State) : Host.Outcome State Fault Refusal :=
  .next (s.setV x (s.getV x ||| s.getV y))

/-- `8xy2`: `V[x] <- V[x] & V[y]`, `VF` not touched as a flag (rule R165). -/
def execAnd (x y : Reg) (s : State) : Host.Outcome State Fault Refusal :=
  .next (s.setV x (s.getV x &&& s.getV y))

/-- `8xy3`: `V[x] <- V[x] xor V[y]`, `VF` not touched as a flag (rule R166). -/
def execXor (x y : Reg) (s : State) : Host.Outcome State Fault Refusal :=
  .next (s.setV x (s.getV x ^^^ s.getV y))

/-- `8xy4`: the sum is computed once, the result is written first and the carry last (rule R167). -/
def execAddVxVy (x y : Reg) (s : State) : Host.Outcome State Fault Refusal :=
  .next ((s.setV x (add8 (s.getV x) (s.getV y))).setV VF (carryFlag (s.getV x) (s.getV y)))

/-- The statements of rules R168 and R170 after the comparison: `VF <- f`, then `V[x] <- V[a] - V[b]` with the
registers read after the write of `VF`. -/
def State.subtractAfterFlag (s : State) (f : Byte) (x a b : Reg) : State :=
  (s.setV VF f).setV x (sub8 ((s.setV VF f).getV a) ((s.setV VF f).getV b))

/-- `8xy5`: `VF` = (`V[x] > V[y]`) from the values before any write, then `V[x] <- V[x] - V[y]` (rule R168). -/
def execSub (x y : Reg) (s : State) : Host.Outcome State Fault Refusal :=
  .next (s.subtractAfterFlag (greaterFlag (s.getV x) (s.getV y)) x x y)

/-- `8xy7`: `VF` = (`V[y] > V[x]`) from the values before any write, then `V[x] <- V[y] - V[x]` (rule R170). -/
def execSubn (x y : Reg) (s : State) : Host.Outcome State Fault Refusal :=
  .next (s.subtractAfterFlag (greaterFlag (s.getV y) (s.getV x)) x y x)

/-- The first statement of rules R169 and R171: under `SHIFT_SRC = vy`, `V[x] <- V[y]`. -/
def State.shiftSource (s : State) (x y : Reg) : State :=
  match s.params.shiftSrc with
  | .vy => s.setV x (s.getV y)
  | .vx => s

/-- The other two statements of rules R169 and R171: `VF <- flag(V[x])`, then `V[x] <- shift(V[x])`, each on the
registers as they stand. -/
def State.shiftAfterFlag (s : State) (x : Reg) (flag shift : Byte → Byte) : State :=
  (s.setV VF (flag (s.getV x))).setV x (shift ((s.setV VF (flag (s.getV x))).getV x))

/-- `8xy6`: shift right by one, `VF` = the bit shifted out (rule R169). -/
def execShr (x y : Reg) (s : State) : Host.Outcome State Fault Refusal :=
  .next ((s.shiftSource x y).shiftAfterFlag x lowBitFlag shr8)

/-- `8xyE`: shift left by one, `VF` = the bit shifted out (rule R171). -/
def execShl (x y : Reg) (s : State) : Host.Outcome State Fault Refusal :=
  .next ((s.shiftSource x y).shiftAfterFlag x highBitFlag shl8)

/-- `Cxnn`: `V[x] <- draw_rand() & nn`, the draw a free value (rule R175; log entry 3). -/
def execRnd (x : Reg) (nn : Byte) (s : State) : Host.Outcome State Fault Refusal :=
  .next (s.draw.2.setV x (s.draw.1 &&& nn))

end Sys2Proof.Machine
end

