-- ==== Sys2Proof/Machine/TimersKeys.lean ====
section
/-! DEFINITION. Machine/TimersKeys.lean: the timer and key instructions (spec/44_timers_keys.md). Which of
`Fx07`, `Fx15` and `Fx18` does what is the spec's decision D15 (log entry 11). -/

namespace Sys2Proof.Machine

/-- `Fx07`: `V[x] <- DT` (rule R230). -/
def execLdVxDt (x : Reg) (s : State) : Host.Outcome State Fault Refusal :=
  .next (s.setV x s.dt)

/-- `Fx15`: `DT <- V[x]` (rule R231). -/
def execLdDtVx (x : Reg) (s : State) : Host.Outcome State Fault Refusal :=
  .next (s.setDt (s.getV x))

/-- `Fx18`: `ST <- V[x]` (rule R232). -/
def execLdStVx (x : Reg) (s : State) : Host.Outcome State Fault Refusal :=
  .next (s.setSt (s.getV x))

/-- `Fx0A`: with no key held `pc <- pc - 2`, so that the instruction runs again at the next step; with a key
held `V[x] <- zext_8(key)` (rule R233). -/
def execLdVxK (x : Reg) (s : State) : Host.Outcome State Fault Refusal :=
  .next (match s.key with
    | none => s.setPc (s.pc - 2)
    | some k => s.setV x (zextKey k))

end Sys2Proof.Machine
end

