-- ==== Sys2Proof/Machine/Step.lean ====
section
/-! DEFINITION. Machine/Step.lean: one `step()` of the engine (spec/10_state.md rule R50), and the placing of one
instruction where the next step fetches. -/

namespace Sys2Proof.Machine

/-- `step()` (rule R50): with a fault latched nothing happens; otherwise fetch, decode and execute one
instruction. A fault is recorded in the latch and the step answers a next state (rule R256; log entry 1). -/
def step (s : State) : Host.Outcome State Fault Refusal :=
  match s.fault with
  | some _ => .next s
  | none =>
    match s.fetch with
    | .error f => .next (s.raise f)
    | .ok (w, s1) =>
      match decodeWord w with
      | .ok i => exec i s1
      | .error _ => .next (s1.raise (.illegalInstruction w s1.ipc))

/-- `s` with the instruction whose table bits are `w` stored big-endian at `pc`, and the fault latch clear, since
a faulted core fetches nothing (rules R83 and R257; log entries 7 and 20). -/
def State.withFetchWord (s : State) (nbits w : Nat) : State :=
  { (s.memWriteList s.pc.toNat
      [(bytesOfWord (BitVec.ofNat 16 (w % 2 ^ nbits))).1, (bytesOfWord (BitVec.ofNat 16 (w % 2 ^ nbits))).2]) with
    fault := none }

end Sys2Proof.Machine
end

