-- ==== Sys2Proof/Machine/Agents.lean ====
section
/-! DEFINITION. Machine/Agents.lean: the six ports of spec/10_state.md rule R46 and the agents that use them
(spec/00_scope.md rule R13), the loader in front of the `load` port (spec/70_reset_and_hazards.md rule R304), and
the host's `run` driver (rule R316). Each agent's action is one function, atomic between steps (spec/20_memory.md
rule R92); which agent acts next is data, a list of events. -/

namespace Sys2Proof.Machine

/-! ### The tick source, the input collaborator and reset -/

/-- A timer after one tick: down by one, floor at zero (rule R262). -/
def countDown (t : Byte) : Byte := if t.toNat > 0 then t - 1 else t

/-- `timer_tick()` (rule R262): both timers count down independently; on a faulted core nothing happens. -/
def timerTick (s : State) : State :=
  match s.fault with
  | some _ => s
  | none => (s.setDt (countDown s.dt)).setSt (countDown s.st)

/-- The key port (rule R47): the input collaborator writes `none` or a key code. -/
def keyPort (k : Option Key) (s : State) : State := s.setKey k

/-- The reset port (rule R300): every piece of state to its reset value. The parameters stay (rule R41), and the
count of draws goes on, so that no draw after a reset repeats one before it (log entry 3). -/
def resetPort (s : State) : State := State.resetWith s.params s.draws

/-! ### Loading (rules R303 to R305) -/

/-- The engine's `load`: the image is copied into memory from address 0, the bytes above it keep what they held
and nothing else changes; more than 4096 bytes is `ProgramTooLarge` (rule R303). -/
def loadPort (image : List Byte) (s : State) : Host.Outcome State Fault Refusal :=
  if imageWellFormed image then .next (s.memWriteList 0 image) else .fault (.programTooLarge image.length)

/-- The loader outside the core (rule R304): the 4096-byte image of a raw program, zero but for the font at 0x050
and the program at 0x200; a program over 3584 bytes is refused before anything runs. -/
def loaderImage (font : Vector Byte Config.fontLen) (program : List Byte) :
    Host.Outcome (List Byte) Fault Refusal :=
  if programWellFormed program then
    .next (List.replicate Config.fontBase 0 ++ font.toList ++ List.replicate (Config.progBase - Config.fontBase - Config.fontLen) 0
      ++ program ++ List.replicate (Config.maxProgram - program.length) 0)
  else .fault (.programTooLarge program.length)

/-! ### Observation (rules R39, R48 and R49): reading changes nothing -/

/-- The renderer's snapshot: 2048 bits, row-major, pixel (`r`, `c`) at index `r * 64 + c` (rules R39 and R48). -/
def State.snapshot (s : State) : List Bool :=
  (List.finRange 32).flatMap (fun r => (List.finRange 64).map (fun c => s.fb.pixel r c))

/-- What the debugger's `print` shows: pc, index, the 16 registers and the stack (rules R49 and R275). -/
structure RegisterDump where
  /-- `pc`. -/
  pc : Word
  /-- `I`. -/
  i : Word
  /-- `V[0]` to `V[15]`. -/
  v : Vector Byte 16
  /-- The stack contents. -/
  stack : List Word
  deriving DecidableEq, Repr

/-- The host's view of the registers (rule R49). -/
def State.dump (s : State) : RegisterDump := { pc := s.pc, i := s.i, v := s.v, stack := s.stack }

/-- The instruction at an address, read without executing it; `none` when the two bytes do not both lie in memory
(rules R49 and R276). -/
def State.instrAt (s : State) (a : Word) : Option (Except DecodeError Instr) :=
  if a.toNat + 1 < Config.memSize then some (decodeWord (s.wordAt a.toNat)) else none

/-! ### The core with its environment: one event at a time (rules R46 and R92) -/

/-- An event at a port (rule R46). -/
inductive Event where
  /-- Port `reset`. -/
  | reset
  /-- Port `load`, with the image. -/
  | load (image : List Byte)
  /-- Port `step`; the byte that a `Cxnn` draws is `Config.freeByte`'s. -/
  | step
  /-- Port `tick`. -/
  | tick
  /-- Port `key`, with the value presented. -/
  | key (k : Option Key)
  /-- Port `observe`: the renderer or the host reads. -/
  | observe
  deriving DecidableEq, Repr

/-- The core in its environment: its state, and whether `load` is still allowed, that is whether no step has been
taken since the last reset (rule R303, decision D20; log entry 8). -/
structure Session where
  /-- The core's state. -/
  core : State
  /-- No step since reset. -/
  loadOpen : Bool
  deriving DecidableEq, Repr

/-- Construction of the engine (rule R306 step 1). -/
def Session.reset : Session := { core := State.reset, loadOpen := true }

/-- The session with a new core state. -/
def Session.withCore (z : Session) (s : State) : Session := { z with core := s }

/-- An outcome of the core, as an outcome of the session. -/
def Session.lift (loadOpen : Bool) : Host.Outcome State Fault Refusal → Host.Outcome Session Fault Refusal
  | .next s => .next { core := s, loadOpen := loadOpen }
  | .fault r => .fault r
  | .refused r => .refused r

/-- One event (rule R46). `load` is refused outside its window (rule R303, decision D20). -/
def Session.apply (e : Event) (z : Session) : Host.Outcome Session Fault Refusal :=
  match e with
  | .reset => .next { core := resetPort z.core, loadOpen := true }
  | .load image => if z.loadOpen then Session.lift true (loadPort image z.core) else .refused .loadOutsideWindow
  | .step => Session.lift false (Sys2Proof.Machine.step z.core)
  | .tick => .next (z.withCore (timerTick z.core))
  | .key k => .next (z.withCore (keyPort k z.core))
  | .observe => .next z

/-- A run under any interleaving of the agents: the events in their order, up to the first that stops (rules R92
and R263). -/
def Session.applyAll : List Event → Session → Host.Outcome Session Fault Refusal
  | [], z => .next z
  | e :: rest, z =>
    match z.apply e with
    | .next z' => Session.applyAll rest z'
    | .fault r => .fault r
    | .refused r => .refused r

/-! ### Endless runs and fairness (rules R263 and R317) -/

/-- An endless order of events. It is the environment's, no part of any state. -/
abbrev Schedule := Nat → Event

/-- The sessions `run 0`, `run 1`, … are what the schedule's events make of the first, one after the other. -/
def Schedule.IsRun (sched : Schedule) (run : Nat → Session) : Prop := ∀ n, (run n).apply (sched n) = .next (run (n + 1))

/-- An event keeps coming: after every point of the schedule it comes again. -/
def Schedule.keepsComing (sched : Schedule) (e : Event) : Prop := ∀ n, ∃ m, n ≤ m ∧ sched m = e

/-- The fairness assumption, the only liveness a program may assume: "ticks keep coming while steps keep coming"
(rule R263). Nothing bounds how many events fall between two ticks. -/
def Schedule.Fair (sched : Schedule) : Prop := sched.keepsComing .step → sched.keepsComing .tick

/-! ### The host's `run` (rule R316) -/

/-- `run(Some(n))`: exactly `n` steps, none for 0. `run(None)`, interrupted after `n` iterations, is the same. -/
def runSteps : Nat → State → Host.Outcome State Fault Refusal
  | 0, s => .next s
  | n + 1, s =>
    match Sys2Proof.Machine.step s with
    | .next t => runSteps n t
    | .fault r => .fault r
    | .refused r => .refused r

end Sys2Proof.Machine
end

