-- ==== Sys2Proof/Machine/Debugger.lean ====
section
/-! DEFINITION. Machine/Debugger.lean: the Debug Controller, a host agent outside the core (spec/60_exceptions.md
section 7, rules R270 to R283; spec/00_scope.md rule R5 (b)). It holds no state of the core and changes it only by
calling `step()`. -/

namespace Sys2Proof.Machine

/-- The controller's states (rule R271). -/
inductive DebugMode where
  /-- `Running(remaining)`: `none` runs until a breakpoint. -/
  | running (remaining : Option Nat)
  /-- `Paused`. -/
  | paused
  /-- `BreakpointHit`. -/
  | breakpointHit
  /-- `Stopped`, terminal. -/
  | stopped
  deriving DecidableEq, Repr

/-- The controller (rule R271). Its initial state is not in the source (N12), so the model gives none. -/
structure Debugger where
  /-- The state of the state machine. -/
  mode : DebugMode
  /-- The breakpoint set, "an unordered set of 16-bit addresses": a list without repeats. -/
  breakpoints : List Word
  /-- The one-shot suppression flag (rule R279). -/
  suppress : Bool
  deriving DecidableEq, Repr

/-- The commands (rules R272 to R276, R281 and R282). The letters of the command line are not mapped by the
source (rule R283, N11), so the model begins after the reading of a line. DESIGN CHOICE: the letters `x` and `h` may
stand for examining memory and for help, which the source leaves open; the model has no such command, and the host reads
a byte of memory by `State.memRead` (rules R2, R49 and R283; log entry 24). -/
inductive DebugCommand where
  /-- `step [n]`. -/
  | step (n : Option Nat)
  /-- `continue`. -/
  | continue
  /-- `breakpoint add addr`. -/
  | addBreakpoint (a : Word)
  /-- `breakpoint delete addr`. -/
  | deleteBreakpoint (a : Word)
  /-- `breakpoint list`. -/
  | listBreakpoints
  /-- `print`. -/
  | print
  /-- `disassemble addr`. -/
  | disassemble (a : Word)
  /-- `quit`. -/
  | quit
  /-- An unrecognized command, or one whose arguments fail it. -/
  | unrecognized
  deriving DecidableEq, Repr

/-- What the controller shows the operator. -/
inductive DebugReply where
  /-- Nothing. -/
  | none
  /-- The breakpoints. -/
  | breakpoints (l : List Word)
  /-- The registers and the stack. -/
  | dump (d : RegisterDump)
  /-- An instruction, or `none` where the word matches no row (log entry 25). -/
  | instr (i : Option Instr)
  /-- The address of the breakpoint that was hit. -/
  | hit (a : Word)
  /-- A diagnostic. -/
  | diagnostic
  deriving DecidableEq, Repr

/-- Enter `Running`: the next iteration's breakpoint check is suppressed (rule R279). -/
def Debugger.enterRunning (d : Debugger) (remaining : Option Nat) : Debugger :=
  { d with mode := .running remaining, suppress := true }

/-- The set with an address added, kept without repeats (rule R271). -/
def insertBreakpoint (a : Word) (l : List Word) : List Word := if a ∈ l then l else a :: l

/-- A command given to a `Paused` controller (rules R272 to R276, R281, R282). A missing or malformed count is 1.
DESIGN CHOICE: what `disassemble` shows for a word that matches no row is not in the source (rule R276); the model
replies that it is no instruction and gives no reason (log entry 25). -/
def Debugger.pausedCommand (d : Debugger) (s : State) : DebugCommand → Host.Outcome (Debugger × DebugReply) Fault Refusal
  | .step n => .next (d.enterRunning (some (n.getD 1)), .none)
  | .continue => .next (d.enterRunning Option.none, .none)
  | .addBreakpoint a => .next ({ d with breakpoints := insertBreakpoint a d.breakpoints }, .none)
  | .deleteBreakpoint a => .next ({ d with breakpoints := d.breakpoints.filter (· ≠ a) }, .none)
  | .listBreakpoints => .next (d, .breakpoints d.breakpoints)
  | .print => .next (d, .dump s.dump)
  | .disassemble a =>
    match s.instrAt a with
    | some r => .next (d, .instr r.toOption)
    | none => .refused .noWordAtAddress
  | .quit => .next ({ d with mode := .stopped }, .none)
  | .unrecognized => .next (d, .diagnostic)

/-- A command. Outside `Paused` the source gives only `quit`, in `Running` (rule R281), and the diagnostic (rule
R282). -/
def Debugger.command (c : DebugCommand) (d : Debugger) (s : State) : Host.Outcome (Debugger × DebugReply) Fault Refusal :=
  match d.mode, c with
  | .paused, c => d.pausedCommand s c
  | .running _, .quit => .next ({ d with mode := .stopped }, .none)
  | .running _, .unrecognized => .next (d, .diagnostic)
  | _, _ => .refused .commandNotTaken

/-- Step the core, and go on with the controller as it then is. -/
def Debugger.afterStep (d : Debugger) : Host.Outcome State Fault Refusal → Host.Outcome (Debugger × State × DebugReply) Fault Refusal
  | .next t => .next (d, t, .none)
  | .fault r => .fault r
  | .refused r => .refused r

/-- One iteration of the controller, without a command: in `Running` as rule R278's pseudocode has it; from
`BreakpointHit` the address is shown and the controller pauses (rule R280). DESIGN CHOICE: the spec names no
transition for a `step()` that faults in `Running` (rule R277, N12); the model's controller stays in `Running` as rule
R278's pseudocode goes on, and its later steps do nothing, the latch being set (log entry 23). -/
def Debugger.iterate (d : Debugger) (s : State) : Host.Outcome (Debugger × State × DebugReply) Fault Refusal :=
  match d.mode with
  | .running remaining =>
    if d.suppress = false ∧ s.pc ∈ d.breakpoints then .next ({ d with mode := .breakpointHit }, s, .none)
    else
      match remaining with
      | some 0 => .next ({ d with mode := .paused, suppress := false }, s, .none)
      | some (n + 1) => Debugger.afterStep { d with mode := .running (some n), suppress := false } (Sys2Proof.Machine.step s)
      | Option.none => Debugger.afterStep { d with suppress := false } (Sys2Proof.Machine.step s)
  | .breakpointHit => .next ({ d with mode := .paused }, s, .hit s.pc)
  | .paused => .next (d, s, .none)
  | .stopped => .next (d, s, .none)

end Sys2Proof.Machine
end

