-- ==== Sys2Proof/Safety.lean ====
section
/-! DEFINITION. Safety.lean: the invariant of the machine, what a faulted and a settled core are, and the words
in which the statements say what an instruction does and what it leaves unchanged. -/

namespace Sys2Proof.Machine

/-! ### The invariant -/

/-- What the state of a core with a latched fault has in common with its record (rules R250 to R256): a fetch
fault left `pc` where it was, an execute fault left it at `ipc + 2`, and the condition of the fault holds. -/
def FaultRecord.coherent (s : State) : FaultRecord → Bool
  | .pcOutOfBounds a => decide (a = s.pc) && decide (4095 ≤ a.toNat)
  | .illegalInstruction w ipc => decide (s.pc = ipc + 2) && decide (ipc.toNat ≤ 4094) && (decodeWord w).toOption.isNone
  | .stackEmpty ipc => decide (s.pc = ipc + 2) && decide (ipc.toNat ≤ 4094) && s.stack.isEmpty
  | .memOutOfBounds a => decide (a.toNat = max s.i.toNat 4096)
  | .stackOverflow ipc => decide (s.pc = ipc + 2) && decide (ipc.toNat ≤ 4094) && decide (s.params.stackDepth = some s.stack.length)

/-- The latch is empty or its record fits the state. -/
def State.latchCoherent (s : State) : Bool :=
  match s.fault with
  | none => true
  | some f => f.coherent s

/-- The stack holds at most `STACK_DEPTH` entries (rule R36). -/
def State.stackWithinDepth (s : State) : Bool :=
  match s.params.stackDepth with
  | none => true
  | some d => decide (s.stack.length ≤ d)

/-- A return address: what a `2nnn` at some `ipc ≤ 4094` pushes, `ipc + 2` (rules R142 and R143). -/
def isReturnAddress (a : Word) : Bool := decide (2 ≤ a.toNat) && decide (a.toNat ≤ 4096)

/-- The invariant: memory is in canonical form; the parameters are legal; the stack is within its depth and holds
return addresses only; `pc` is at most 0x10FE (rule R34); and the latch fits the state. -/
def State.inv (s : State) : Bool :=
  s.mem.wf && s.params.wellFormed && s.stackWithinDepth && s.stack.all isReturnAddress && decide (s.pc.toNat ≤ 0x10FE)
    && s.latchCoherent

/-! ### The ends of a run -/

/-- A run has ended in a fault (rule R257). -/
def State.faulted (s : State) : Bool := s.fault.isSome

/-- A program has settled (rule R308): no fault, and the next instruction is a `1nnn` jump to itself. -/
def State.settled (s : State) : Bool :=
  s.fault.isNone && decide (s.pc.toNat ≤ 0xFFE) && decide (s.wordAt s.pc.toNat = 0x1000 + s.pc)

/-! ### What an instruction may do, as tables over the whole instruction set -/

/-- The table of rule R33: the `pc` an instruction leaves when it does not fault, with `ipc` the address it was
fetched from. -/
def pcAfter (ipc : Word) (s : State) : Instr → Word
  | .jp nnn => nnn.setWidth 16
  | .call nnn => nnn.setWidth 16
  | .ret => s.stack.getLastD 0
  | .jpV0 nnn => nnn.setWidth 16 + (s.getV 0).setWidth 16
  | .seVxNn x nn => if s.getV x = nn then ipc + 4 else ipc + 2
  | .sneVxNn x nn => if s.getV x ≠ nn then ipc + 4 else ipc + 2
  | .seVxVy x y => if s.getV x = s.getV y then ipc + 4 else ipc + 2
  | .sneVxVy x y => if s.getV x ≠ s.getV y then ipc + 4 else ipc + 2
  | .ldVxK _ => if s.key = none then ipc else ipc + 2
  | .cls | .ldVxNn _ _ | .addVxNn _ _ | .ldVxVy _ _ | .or _ _ | .and _ _ | .xor _ _ | .addVxVy _ _ | .sub _ _ | .shr _ _
  | .subn _ _ | .shl _ _ | .ldINnn _ | .rnd _ _ | .drw _ _ _ | .ldVxDt _ | .ldDtVx _ | .ldStVx _ | .addIVx _ | .ldFVx _
  | .ldBVx _ | .ldMemVx _ | .ldVxMem _ => ipc + 2

/-- The general registers an instruction may write (rules R30 and R31): its destinations, and `VF` for the six
that write it as a flag. -/
def mayWrite : Instr → List Reg
  | .ldVxNn x _ | .addVxNn x _ | .ldVxVy x _ | .or x _ | .and x _ | .xor x _ | .rnd x _ | .ldVxDt x | .ldVxK x => [x]
  | .addVxVy x _ | .sub x _ | .shr x _ | .subn x _ | .shl x _ => [x, VF]
  | .drw _ _ _ => [VF]
  | .ldVxMem x => (List.finRange 16).filter (fun r => decide (r ≤ x))
  | .cls | .ret | .jp _ | .call _ | .seVxNn _ _ | .sneVxNn _ _ | .seVxVy _ _ | .sneVxVy _ _ | .ldINnn _ | .jpV0 _
  | .ldDtVx _ | .ldStVx _ | .addIVx _ | .ldFVx _ | .ldBVx _ | .ldMemVx _ => []

/-- How many bytes an instruction accesses from `I` on (rules R86 and R88). -/
def accessSize : Instr → Nat
  | .drw _ _ n => n.val
  | .ldBVx _ => 3
  | .ldMemVx x | .ldVxMem x => x.val + 1
  | .cls | .ret | .jp _ | .call _ | .seVxNn _ _ | .sneVxNn _ _ | .seVxVy _ _ | .ldVxNn _ _ | .addVxNn _ _ | .ldVxVy _ _
  | .or _ _ | .and _ _ | .xor _ _ | .addVxVy _ _ | .sub _ _ | .shr _ _ | .subn _ _ | .shl _ _ | .sneVxVy _ _ | .ldINnn _
  | .jpV0 _ | .rnd _ _ | .ldVxDt _ | .ldVxK _ | .ldDtVx _ | .ldStVx _ | .addIVx _ | .ldFVx _ => 0

/-- How many bytes an instruction stores from `I` on (rules R88 and R196): only `Fx33` and `Fx55` store. -/
def storeSize : Instr → Nat
  | .ldBVx _ => 3
  | .ldMemVx x => x.val + 1
  | .cls | .ret | .jp _ | .call _ | .seVxNn _ _ | .sneVxNn _ _ | .seVxVy _ _ | .ldVxNn _ _ | .addVxNn _ _ | .ldVxVy _ _
  | .or _ _ | .and _ _ | .xor _ _ | .addVxVy _ _ | .sub _ _ | .shr _ _ | .subn _ _ | .shl _ _ | .sneVxVy _ _ | .ldINnn _
  | .jpV0 _ | .rnd _ _ | .drw _ _ _ | .ldVxDt _ | .ldVxK _ | .ldDtVx _ | .ldStVx _ | .addIVx _ | .ldFVx _ | .ldVxMem _ => 0

/-- The fault of an access to the `k` bytes at `I`, if one of them lies at 4096 or above (rule R86). -/
def memFaultOf (s : State) (k : Nat) : Option FaultRecord :=
  if 1 ≤ k ∧ 4096 ≤ s.i.toNat + k - 1 then some (.memOutOfBounds (BitVec.ofNat 16 (max s.i.toNat 4096))) else none

/-- The table of rule R250 for the execute phase: the fault, if any, that an instruction raises in a state whose
`pc` is `ipc + 2`. -/
def faultOf (s : State) : Instr → Option FaultRecord
  | .ret => if s.stack = [] then some (.stackEmpty (s.pc - 2)) else none
  | .call _ => if s.params.stackDepth = some s.stack.length then some (.stackOverflow (s.pc - 2)) else none
  | .drw _ _ n => memFaultOf s n.val
  | .ldBVx _ => memFaultOf s 3
  | .ldMemVx x => memFaultOf s (x.val + 1)
  | .ldVxMem x => memFaultOf s (x.val + 1)
  | .cls | .jp _ | .seVxNn _ _ | .sneVxNn _ _ | .seVxVy _ _ | .ldVxNn _ _ | .addVxNn _ _ | .ldVxVy _ _ | .or _ _ | .and _ _
  | .xor _ _ | .addVxVy _ _ | .sub _ _ | .shr _ _ | .subn _ _ | .shl _ _ | .sneVxVy _ _ | .ldINnn _ | .jpV0 _ | .rnd _ _
  | .ldVxDt _ | .ldVxK _ | .ldDtVx _ | .ldStVx _ | .addIVx _ | .ldFVx _ => none

/-! ### Sprites (rules R211 to R213) -/

/-- Whether the raw position column `px`, row `py` is placed on pixel (`r`, `c`): under `wrap` each axis wraps on
its own, under `clip` only a position on the screen is placed (rule R211). -/
def placesOn (edge : DrawEdge) (px py : Nat) (r : Fin 32) (c : Fin 64) : Bool :=
  match edge with
  | .wrap => decide (py % 32 = r.val) && decide (px % 64 = c.val)
  | .clip => decide (py = r.val) && decide (px = c.val)

/-- Whether pixel (`r`, `c`) belongs to the set `S` of rule R213: the placed 1-bits of a sprite of `n` rows whose
bytes lie from `addr` on and whose top-left pixel is at column `x0`, row `y0`. -/
def spriteCovers (s : State) (addr n x0 y0 : Nat) (r : Fin 32) (c : Fin 64) : Bool :=
  (List.range n).any (fun k => (List.range 8).any (fun j =>
    (s.memRead (addr + k)).getLsbD (7 - j) && placesOn s.params.drawEdge (x0 + j) (y0 + k) r c))

/-! ### What memory holds after a store (rule R95) -/

/-- The byte at address `a` once `Fx55` has stored `V[0]` to `V[x]` from `I` on (rule R194). -/
def byteAfterBlock (s : State) (x : Reg) (a : Nat) : Byte :=
  if s.i.toNat ≤ a ∧ a ≤ s.i.toNat + x.val then s.getV (Fin.ofNat 16 (a - s.i.toNat)) else s.memRead a

/-- The byte at address `a` once `Fx33` has stored the digits of `V[x]` from `I` on, hundreds first (rule R193). -/
def byteAfterDigits (s : State) (x : Reg) (a : Nat) : Byte :=
  if a = s.i.toNat then BitVec.ofNat 8 ((s.getV x).toNat / 100)
  else if a = s.i.toNat + 1 then BitVec.ofNat 8 ((s.getV x).toNat / 10 % 10)
  else if a = s.i.toNat + 2 then BitVec.ofNat 8 ((s.getV x).toNat % 10)
  else s.memRead a

/-! ### What stays unchanged -/

/-- Only the listed general registers may differ. -/
def OnlyRegisters (changed : List Reg) (s t : State) : Prop := ∀ r, r ∉ changed → t.getV r = s.getV r

/-- Every byte of memory reads as before. -/
def SameBytes (s t : State) : Prop := ∀ a, t.memRead a = s.memRead a

/-- Every byte outside the `k` bytes from address `a` on reads as before. -/
def SameBytesOutside (a k : Nat) (s t : State) : Prop := ∀ b, b < a ∨ a + k ≤ b → t.memRead b = s.memRead b

/-- Every pixel is as before. -/
def SamePixels (s t : State) : Prop := ∀ r c, t.fb.pixel r c = s.fb.pixel r c

/-- The index register, the stack and the timers are as before. -/
def SameSpecial (s t : State) : Prop := t.i = s.i ∧ t.stack = s.stack ∧ t.dt = s.dt ∧ t.st = s.st

/-- The key cell, the fault latch, the parameters and the count of draws are as before. -/
def SameRest (s t : State) : Prop := t.key = s.key ∧ t.fault = s.fault ∧ t.params = s.params ∧ t.draws = s.draws

/-- The frame of an instruction that writes nothing but general registers: those listed may differ, nothing else
does. -/
def RegistersFrame (changed : List Reg) (s t : State) : Prop :=
  OnlyRegisters changed s t ∧ t.pc = s.pc ∧ SameSpecial s t ∧ SameBytes s t ∧ SamePixels s t ∧ SameRest s t

/-- The frame of an instruction that writes nothing but `pc`. -/
def PcFrame (s t : State) : Prop :=
  OnlyRegisters [] s t ∧ SameSpecial s t ∧ SameBytes s t ∧ SamePixels s t ∧ SameRest s t

/-- The frame of an instruction that writes nothing but `pc` and the stack. -/
def StackFrame (s t : State) : Prop :=
  OnlyRegisters [] s t ∧ t.i = s.i ∧ t.dt = s.dt ∧ t.st = s.st ∧ SameBytes s t ∧ SamePixels s t ∧ SameRest s t

/-- The frame of an instruction that writes nothing but `I`. -/
def IndexFrame (s t : State) : Prop :=
  OnlyRegisters [] s t ∧ t.pc = s.pc ∧ t.stack = s.stack ∧ t.dt = s.dt ∧ t.st = s.st ∧ SameBytes s t ∧ SamePixels s t ∧ SameRest s t

/-- The frame of an instruction that stores the `k` bytes from address `a` on and writes nothing else. -/
def StoreFrame (a k : Nat) (s t : State) : Prop :=
  OnlyRegisters [] s t ∧ t.pc = s.pc ∧ SameSpecial s t ∧ SameBytesOutside a k s t ∧ SamePixels s t ∧ SameRest s t

/-- The frame of an instruction that writes nothing but pixels and the listed registers. -/
def PixelsFrame (changed : List Reg) (s t : State) : Prop :=
  OnlyRegisters changed s t ∧ t.pc = s.pc ∧ SameSpecial s t ∧ SameBytes s t ∧ SameRest s t

/-- The `k` bytes at `I` all lie in memory (rule R86). -/
def InMemory (s : State) (k : Nat) : Prop := s.i.toNat + k ≤ 4096

end Sys2Proof.Machine
end

