-- ==== Sys2Proof/Certificates/Slice0/Obligations.lean ====
section
/-! DEFINITION. Certificates/Slice0/Obligations.lean: the statements for the provers. `exec i s` is the execute
phase of one instruction, so `s.pc` is `ipc + 2` there (spec/10_state.md rule R50); `step s` is a whole step. -/

open Sys2Proof Sys2Proof.Machine

/-! ### Encoding (spec/30_encoding.md) -/

/-- Every instruction's bytes decode to it, with every operand at every value of its field, and the bytes that
follow come back: decode and encode agree (rules R110, R111 and R115). -/
def Obligations.DecodeOfEncodeIsTheInstruction : Prop :=
  ∀ (i : Instr) (rest : List Byte), decodeBytes (encodeBytes i ++ rest) = .ok (i, rest)

/-- A word that decodes is the encoding of what it decodes to: no bit of a word is dropped, and no two words share
a meaning (rules R115 and R116). -/
def Obligations.EncodeOfDecodeIsTheWord : Prop :=
  ∀ (w : Word) (i : Instr), decodeWord w = .ok i → encode i = w

/-- A word is an instruction exactly when it matches a row of the opcode map, `w & mask = match` (rule R115). -/
def Obligations.LegalWordsAreTheOpcodeMap : Prop :=
  ∀ w : Word, (∃ i, decodeWord w = .ok i) ↔ ∃ r ∈ opcodeMap, w &&& r.mask = r.pattern

/-- The 32 rows of the opcode map do not overlap: two rows that match one word are the same row (rule R116). -/
def Obligations.OpcodeMapRowsDoNotOverlap : Prop :=
  opcodeMap.length = 32 ∧ opcodeMap.Nodup ∧
    ∀ (w : Word), ∀ r ∈ opcodeMap, ∀ q ∈ opcodeMap, w &&& r.mask = r.pattern → w &&& q.mask = q.pattern → r = q

/-- The illegal words are exactly those of rule R119's table, class by class. The table rests on the spec's
decision D9 (log entry 10). -/
def Obligations.IllegalWordsByClass : Prop :=
  ∀ w : Word, (∃ e, decodeWord w = .error e) ↔
    (w.extractLsb' 12 4 = 0x0 ∧ w ≠ 0x00E0 ∧ w ≠ 0x00EE) ∨
    (w.extractLsb' 12 4 = 0x5 ∧ w.extractLsb' 0 4 ≠ 0) ∨
    (w.extractLsb' 12 4 = 0x8 ∧ w.extractLsb' 0 4 ∈ ([0x8, 0x9, 0xA, 0xB, 0xC, 0xD, 0xF] : List (BitVec 4))) ∨
    (w.extractLsb' 12 4 = 0x9 ∧ w.extractLsb' 0 4 ≠ 0) ∨
    w.extractLsb' 12 4 = 0xE ∨
    (w.extractLsb' 12 4 = 0xF ∧
      w.extractLsb' 0 8 ∉ ([0x07, 0x0A, 0x15, 0x18, 0x1E, 0x29, 0x33, 0x55, 0x65] : List (BitVec 8)))

/-- Words written out in the spec decode to the instructions the spec names for them (95_test_vectors.md), one for
each family and some at a field's boundary, and illegal words to nothing. -/
def Obligations.SpecWordsDecode : Prop :=
  decodeTableWord 16 0x1234 = some (.jp 0x234) ∧ decodeTableWord 16 0xBFFF = some (.jpV0 0xFFF) ∧
  decodeTableWord 16 0x5340 = some (.seVxVy 3 4) ∧ decodeTableWord 16 0x6A77 = some (.ldVxNn 10 0x77) ∧
  decodeTableWord 16 0x80F5 = some (.sub 0 15) ∧ decodeTableWord 16 0x8FFE = some (.shl 15 15) ∧
  decodeTableWord 16 0xC00F = some (.rnd 0 0x0F) ∧ decodeTableWord 16 0xF033 = some (.ldBVx 0) ∧
  decodeTableWord 16 0xFF65 = some (.ldVxMem 15) ∧ decodeTableWord 16 0xD01F = some (.drw 0 1 15) ∧
  decodeTableWord 16 0x00E0 = some .cls ∧ decodeTableWord 16 0x00EE = some .ret ∧
  decodeTableWord 16 0xF20A = some (.ldVxK 2) ∧ decodeTableWord 16 0x0000 = none ∧ decodeTableWord 16 0xE09E = none

/-! ### The step (spec/10_state.md rule R50, spec/60_exceptions.md) -/

/-- When no fault is latched and the two bytes at `pc` decode to an instruction, the step is that instruction's
execute phase on the state whose `pc` has moved past the word; nothing else happens around it. -/
def Obligations.StepRunsTheDecodedInstruction : Prop :=
  ∀ (s : State) (i : Instr), s.fault = none → s.pc.toNat ≤ 4094 →
    decodeBytes [s.memRead s.pc.toNat, s.memRead (s.pc.toNat + 1)] = .ok (i, []) →
    step s = exec i { s with pc := s.pc + 2 }

/-- A word that matches no row raises `IllegalInstruction(w, ipc)`, the word read big-endian and the address of
the instruction; `pc` has advanced and nothing else is changed (rules R118 and R252). -/
def Obligations.IllegalWordRaisesIllegalInstruction : Prop :=
  ∀ (s : State) (w : Word) (e : DecodeError), s.fault = none → s.pc.toNat ≤ 4094 →
    w = s.memRead s.pc.toNat ++ s.memRead (s.pc.toNat + 1) → decodeWord w = .error e →
    step s = .next { s with pc := s.pc + 2, fault := some (.illegalInstruction w s.pc) }

/-- A fetch at `pc ≥ 4095` raises `PcOutOfBounds(pc)`, and nothing else changes, `pc` included. That 4095 is
included is the spec's decision D8 (log entry 10). -/
def Obligations.FetchOutsideMemoryRaisesPcOutOfBounds : Prop :=
  ∀ s : State, s.fault = none → s.pc.toNat ≥ 4095 → step s = .next { s with fault := some (.pcOutOfBounds s.pc) }

/-- On a faulted core a step and a tick do nothing (rules R50 line 0, R257 and R262; decision D11). -/
def Obligations.FaultedCoreDoesNothing : Prop :=
  ∀ (s : State) (f : FaultRecord), s.fault = some f → step s = .next s ∧ timerTick s = s

/-- Every step answers a next state: no instruction, no operand and no state makes the model stop. That a step which
faults, and a step on a faulted core, answer a next state too is the model's choice (DESIGN CHOICE, log entry 1; U17
allows a stuck faulted core instead). -/
def Obligations.EveryStepAnswersANextState : Prop :=
  ∀ s : State, ∃ t, step s = .next t

/-- The reset values that the source states: memory and the registers all zero, `pc` 0x200 (rules R52 and R300,
the rows that carry no decision). -/
def Obligations.ResetValuesOfTheSource : Prop :=
  (∀ a, State.reset.memRead a = 0) ∧ (∀ r, State.reset.getV r = 0) ∧ State.reset.pc = 0x200

/-- The reset values that are the spec's decision D10 (log entry 4): `I` and both timers 0, stack empty, framebuffer
clear, no key, no fault. -/
def Obligations.ResetValuesDecided : Prop :=
  State.reset.i = 0 ∧ State.reset.stack = [] ∧ State.reset.dt = 0 ∧ State.reset.st = 0 ∧
    (∀ r c, State.reset.fb.pixel r c = false) ∧ State.reset.key = none ∧ State.reset.fault = none

/-- With no image loaded the first step faults with `IllegalInstruction(0x0000, 0x200)` (rule R306). -/
def Obligations.FirstStepWithoutAnImageFaults : Prop :=
  step State.reset = .next { State.reset with pc := 0x202, fault := some (.illegalInstruction 0x0000 0x200) }

/-! ### Invariants -/

/-- The invariant holds at reset. -/
def Obligations.ResetMeetsTheInvariant : Prop := State.reset.inv = true

/-- Every step keeps the invariant, from every state that meets it: memory stays canonical, the stack within its
depth and full of return addresses, `pc` at most 0x10FE (rule R34), and the latch fits the state (rules R250 to
R256). -/
def Obligations.EveryStepKeepsTheInvariant : Prop :=
  ∀ s t : State, s.inv = true → step s = .next t → t.inv = true

/-- Every event at every port keeps the invariant, so it holds under every interleaving of the agents (rules R13,
R46 and R92). -/
def Obligations.EveryEventKeepsTheInvariant : Prop :=
  ∀ (e : Event) (z z' : Session), z.core.inv = true → z.apply e = .next z' → z'.core.inv = true

/-! ### Memory (spec/20_memory.md) -/

/-- `MemWrite(a, 1, v)` sets `mem[a]`, a later `MemRead` of `a` returns `v`, every other byte and everything else is
as before, and memory keeps its canonical form (rules R84 and R85). -/
def Obligations.ReadAfterWriteGivesTheByteWritten : Prop :=
  ∀ (s : State) (a : Nat) (v : Byte), s.mem.wf = true → a < 4096 →
    (s.memWrite a v).memRead a = v ∧ (∀ b, b ≠ a → (s.memWrite a v).memRead b = s.memRead b) ∧
      (s.memWrite a v).mem.wf = true ∧ s.memWrite a v = { s with mem := (s.memWrite a v).mem }

/-- A store is seen by the next fetch and by every later one before another store (rule R95): after an `Fx55` or an
`Fx33` whose bytes lie in memory, a fetch at any `pc` up to 4094, that of the next instruction and that of the storing
instruction itself included, reads each of its two bytes as the store left it, whichever of the two the stored bytes
cover. -/
def Obligations.StoreIsSeenByTheNextFetch : Prop :=
  ∀ (s : State) (x : Reg) (p : Word), s.mem.wf = true → p.toNat ≤ 4094 →
    (InMemory s (x.val + 1) → ∃ t, exec (.ldMemVx x) s = .next t ∧
      (t.setPc p).fetch = .ok (byteAfterBlock s x p.toNat ++ byteAfterBlock s x (p.toNat + 1), t.setPc (p + 2))) ∧
    (InMemory s 3 → ∃ t, exec (.ldBVx x) s = .next t ∧
      (t.setPc p).fetch = .ok (byteAfterDigits s x p.toNat ++ byteAfterDigits s x (p.toNat + 1), t.setPc (p + 2)))

/-! ### Rules of the whole machine -/

/-- How each instruction leaves `pc` (rule R33), no fault assumed: `s` is the state after the fetch from `ipc`. A
call also pushes `ipc + 2`, and `Bnnn` leaves at most 0x10FE. -/
def Obligations.PcAfterEachInstruction : Prop :=
  ∀ (i : Instr) (ipc : Word) (s t : State), s.pc = ipc + 2 → s.fault = none → exec i s = .next t → t.fault = none →
    t.pc = pcAfter ipc s i ∧ (∀ nnn, i = .call nnn → t.stack = s.stack ++ [ipc + 2]) ∧
      (∀ nnn, i = .jpV0 nnn → t.pc.toNat ≤ 0x10FE)

/-- An instruction in the execute phase raises exactly the fault that rule R250's table gives it in that state,
and only then; the two faults the spec added are its decisions D3 and D7 (log entry 10). -/
def Obligations.FaultsAreExactlyTheTable : Prop :=
  ∀ (i : Instr) (s t : State), s.fault = none → exec i s = .next t → t.fault = faultOf s i

/-- Faults are precise (rule R256, decision D22): an execute phase that changes the latch changes nothing else. -/
def Obligations.FaultingInstructionChangesNothingElse : Prop :=
  ∀ (i : Instr) (s t : State), s.fault = none → exec i s = .next t → t.fault ≠ none → t = { s with fault := t.fault }

/-- No instruction writes a general register but its destinations and, for the six flag-writing instructions, `VF`
(rules R30 and R31; `VF` after `8xy1` to `8xy3` is decision D12). -/
def Obligations.RegistersChangeOnlyByTheirWriters : Prop :=
  ∀ (i : Instr) (s t : State), exec i s = .next t → OnlyRegisters (mayWrite i) s t

/-- The only stores are `Fx33` and `Fx55`: every instruction leaves every byte outside the bytes it stores, from `I`
on, as it was (rules R88, R89 and R196). -/
def Obligations.MemoryChangesOnlyByStores : Prop :=
  ∀ (i : Instr) (s t : State), exec i s = .next t → SameBytesOutside s.i.toNat (storeSize i) s t

/-- The framebuffer is mutated only by the clear-screen and draw-sprite operations (rule R39); no instruction but
`2nnn` and `00EE` reaches the call stack (rule R36); `I` is written only by `Annn`, `Fx1E` and `Fx29` (rule R35); `DT` only
by `Fx15` and `ST` only by `Fx18` (rule R37; which timer is which is decision D15); the key cell and the parameters by no
instruction (rules R40 and R41). -/
def Obligations.StateChangesOnlyByItsWriters : Prop :=
  ∀ (i : Instr) (s t : State), exec i s = .next t →
    (i ≠ .cls → (∀ x y n, i ≠ .drw x y n) → t.fb = s.fb) ∧
    (i ≠ .ret → (∀ nnn, i ≠ .call nnn) → t.stack = s.stack) ∧
    ((∀ nnn, i ≠ .ldINnn nnn) → (∀ x, i ≠ .addIVx x) → (∀ x, i ≠ .ldFVx x) → t.i = s.i) ∧
    ((∀ x, i ≠ .ldDtVx x) → t.dt = s.dt) ∧ ((∀ x, i ≠ .ldStVx x) → t.st = s.st) ∧
    t.key = s.key ∧ t.params = s.params

/-- The key cell is read only by `Fx0A` (rule R40): with another value in it every other instruction does the
same. -/
def Obligations.KeyIsReadOnlyByKeyWait : Prop :=
  ∀ (i : Instr) (s t : State) (k : Option Key), (∀ x, i ≠ .ldVxK x) → exec i s = .next t →
    exec i (s.setKey k) = .next (t.setKey k)

/-- A tick can matter only to the instructions that touch a timer (rule R92, decision D2): for every other
instruction that does not fault, a tick before it and a tick after it give the same state. -/
def Obligations.TickCommutesWithOtherInstructions : Prop :=
  ∀ (i : Instr) (s t : State), s.fault = none → (∀ x, i ≠ .ldVxDt x) → (∀ x, i ≠ .ldDtVx x) → (∀ x, i ≠ .ldStVx x) →
    exec i s = .next t → t.fault = none → exec i (timerTick s) = .next (timerTick t)

/-- From a settled state every further step leaves the state as it is (rule R308, decision D21). -/
def Obligations.SettledStateStaysAsItIs : Prop :=
  ∀ s : State, s.settled = true → step s = .next s

/-! ### Control transfer (spec/40_control_flow.md) -/

/-- `1nnn` completes from every state with `pc` equal to `nnn`; `Bnnn` with `pc` the exact sum of `nnn` and `V[0]`, which
neither wraps nor is reduced; nothing else changes (rules R141 and R147). -/
def Obligations.JumpsSetPc : Prop :=
  ∀ (nnn : BitVec 12) (s : State),
    (∃ t, exec (.jp nnn) s = .next t ∧ t.pc.toNat = nnn.toNat ∧ PcFrame s t) ∧
    (∃ t, exec (.jpV0 nnn) s = .next t ∧ t.pc.toNat = nnn.toNat + (s.getV 0).toNat ∧ PcFrame s t)

/-- The four skips complete from every state: `pc` is 4 past the instruction's own address when the condition
holds and 2 past it otherwise, and nothing else changes (rules R144, R145, R146 and R148). -/
def Obligations.SkipsAddTwoWhenTheConditionHolds : Prop :=
  ∀ (x y : Reg) (nn : Byte) (ipc : Word) (s : State), s.pc = ipc + 2 →
    (∃ t, exec (.seVxNn x nn) s = .next t ∧ t.pc = (if s.getV x = nn then ipc + 4 else ipc + 2) ∧ PcFrame s t) ∧
    (∃ t, exec (.sneVxNn x nn) s = .next t ∧ t.pc = (if s.getV x = nn then ipc + 2 else ipc + 4) ∧ PcFrame s t) ∧
    (∃ t, exec (.seVxVy x y) s = .next t ∧ t.pc = (if s.getV x = s.getV y then ipc + 4 else ipc + 2) ∧ PcFrame s t) ∧
    (∃ t, exec (.sneVxVy x y) s = .next t ∧ t.pc = (if s.getV x = s.getV y then ipc + 2 else ipc + 4) ∧ PcFrame s t)

/-- `2nnn` completes when the stack is not full: `pc` becomes `nnn`, the advanced `pc` is pushed on top, and nothing
else changes; on a stack of exactly `STACK_DEPTH` entries it raises `StackOverflow(ipc)` and changes nothing else
(rule R143; the overflow is decision D3, log entry 10). -/
def Obligations.CallPushesTheReturnAddress : Prop :=
  ∀ (nnn : BitVec 12) (s : State),
    (s.params.stackDepth ≠ some s.stack.length →
      ∃ t, exec (.call nnn) s = .next t ∧ t.stack = s.stack ++ [s.pc] ∧ t.pc.toNat = nnn.toNat ∧ StackFrame s t) ∧
    (s.params.stackDepth = some s.stack.length →
      exec (.call nnn) s = .next { s with fault := some (.stackOverflow (s.pc - 2)) })

/-- `00EE` completes when the stack holds an entry: the top entry leaves the stack and becomes `pc`, and nothing
else changes; on an empty stack it raises `StackEmpty(ipc)` and changes nothing else (rule R142; the name and the
recorded address are decision D11, log entry 10). -/
def Obligations.ReturnPopsTheStack : Prop :=
  ∀ s : State,
    (∀ (below : List Word) (top : Word), s.stack = below ++ [top] →
      ∃ t, exec .ret s = .next t ∧ t.pc = top ∧ t.stack = below ∧ StackFrame s t) ∧
    (s.stack = [] → exec .ret s = .next { s with fault := some (.stackEmpty (s.pc - 2)) })

/-- A return from the state a call left resumes at the word after the call with the stack as it was (rules R142
and R143): from the state after the call's execute phase, whatever `pc` has become since. -/
def Obligations.ReturnUndoesCall : Prop :=
  ∀ (nnn : BitVec 12) (pc' : Word) (s t : State), s.params.stackDepth ≠ some s.stack.length →
    exec (.call nnn) s = .next t → exec .ret { t with pc := pc' } = .next s

/-! ### Loads, arithmetic, logic, shifts and random (spec/41_load_alu.md) -/

/-- `6xnn` completes from every state with `V[x] = nn`, and `8xy0` with `V[x]` the old `V[y]`; nothing else changes
(rules R161 and R163). -/
def Obligations.LoadImmediateAndCopySetTheRegister : Prop :=
  ∀ (x y : Reg) (nn : Byte) (s : State),
    (∃ t, exec (.ldVxNn x nn) s = .next t ∧ t.getV x = nn ∧ RegistersFrame [x] s t) ∧
    (∃ t, exec (.ldVxVy x y) s = .next t ∧ t.getV x = s.getV y ∧ RegistersFrame [x] s t)

/-- `7xnn` completes from every state with `V[x]` the sum modulo 256 and nothing else changed, `VF` included unless
it is the destination (rule R162). -/
def Obligations.AddImmediateWrapsWithoutAFlag : Prop :=
  ∀ (x : Reg) (nn : Byte) (s : State), ∃ t, exec (.addVxNn x nn) s = .next t ∧
    (t.getV x).toNat = ((s.getV x).toNat + nn.toNat) % 256 ∧ RegistersFrame [x] s t

/-- `8xy1`, `8xy2` and `8xy3` complete from every state, each bit of `V[x]` the or, and, exclusive or of the two old
bits, and nothing else changed; that `VF` is not touched is decision D12 (rules R164 to R166). -/
def Obligations.LogicOperatesBitByBit : Prop :=
  ∀ (x y : Reg) (s : State),
    (∃ t, exec (.or x y) s = .next t ∧ (∀ b, (t.getV x).getLsbD b = ((s.getV x).getLsbD b || (s.getV y).getLsbD b)) ∧
      RegistersFrame [x] s t) ∧
    (∃ t, exec (.and x y) s = .next t ∧ (∀ b, (t.getV x).getLsbD b = ((s.getV x).getLsbD b && (s.getV y).getLsbD b)) ∧
      RegistersFrame [x] s t) ∧
    (∃ t, exec (.xor x y) s = .next t ∧ (∀ b, (t.getV x).getLsbD b = ((s.getV x).getLsbD b ^^ (s.getV y).getLsbD b)) ∧
      RegistersFrame [x] s t)

/-- `8xy4` completes from every state, for every `x` and `y`: `VF` ends as 1 if the exact sum exceeds 255 and as 0
otherwise, `V[x]`, when it is not `VF`, as the sum modulo 256, and nothing else changes (rule R167). -/
def Obligations.AddSetsTheCarry : Prop :=
  ∀ (x y : Reg) (s : State), ∃ t, exec (.addVxVy x y) s = .next t ∧
    t.getV VF = (if (s.getV x).toNat + (s.getV y).toNat > 255 then 1 else 0) ∧
    (x ≠ VF → (t.getV x).toNat = ((s.getV x).toNat + (s.getV y).toNat) % 256) ∧ RegistersFrame [x, VF] s t

/-- `8xy5` and `8xy7` with neither `x` nor `y` equal to 0xF complete from every state: `VF` is 1 exactly when the
minuend was strictly greater, `V[x]` is the difference modulo 256, and nothing else changes (rules R168 and R170). -/
def Obligations.SubtractSetsTheStrictComparison : Prop :=
  ∀ (x y : Reg) (s : State), x ≠ VF → y ≠ VF →
    (∃ t, exec (.sub x y) s = .next t ∧ t.getV VF = (if (s.getV x).toNat > (s.getV y).toNat then 1 else 0) ∧
      (t.getV x).toNat = (256 + (s.getV x).toNat - (s.getV y).toNat) % 256 ∧ RegistersFrame [x, VF] s t) ∧
    (∃ t, exec (.subn x y) s = .next t ∧ t.getV VF = (if (s.getV y).toNat > (s.getV x).toNat then 1 else 0) ∧
      (t.getV x).toNat = (256 + (s.getV y).toNat - (s.getV x).toNat) % 256 ∧ RegistersFrame [x, VF] s t)

/-- `8xy5` and `8xy7` with `x` or `y` equal to 0xF, as rule R173 tabulates them, nothing else changed. The values rest
on the spec's decision D6 (log entry 9). -/
def Obligations.SubtractAliasForms : Prop :=
  ∀ (r : Reg) (s : State), r ≠ VF →
    (∃ t, exec (.sub r VF) s = .next t ∧ t.getV VF = (if (s.getV r).toNat > (s.getV VF).toNat then 1 else 0) ∧
      t.getV r = s.getV r - (if (s.getV r).toNat > (s.getV VF).toNat then 1 else 0) ∧ RegistersFrame [r, VF] s t) ∧
    (∃ t, exec (.sub VF r) s = .next t ∧
      t.getV VF = (if (s.getV VF).toNat > (s.getV r).toNat then 1 else 0) - s.getV r ∧ RegistersFrame [VF] s t) ∧
    (∃ t, exec (.sub VF VF) s = .next t ∧ t.getV VF = 0 ∧ RegistersFrame [VF] s t) ∧
    (∃ t, exec (.subn r VF) s = .next t ∧ t.getV VF = (if (s.getV VF).toNat > (s.getV r).toNat then 1 else 0) ∧
      t.getV r = (if (s.getV VF).toNat > (s.getV r).toNat then 1 else 0) - s.getV r ∧ RegistersFrame [r, VF] s t) ∧
    (∃ t, exec (.subn VF r) s = .next t ∧
      t.getV VF = s.getV r - (if (s.getV r).toNat > (s.getV VF).toNat then 1 else 0) ∧ RegistersFrame [VF] s t) ∧
    (∃ t, exec (.subn VF VF) s = .next t ∧ t.getV VF = 0 ∧ RegistersFrame [VF] s t)

/-- `8xy6` and `8xyE` with `x` other than 0xF complete from every state, under both values of `SHIFT_SRC`: with `src`
the old `V[y]` under `vy` and the old `V[x]` under `vx`, `VF` is the bit of `src` shifted out, `V[x]` is `src` shifted by
one with a zero filled in, and nothing else changes (rules R169 and R171, decision D4). -/
def Obligations.ShiftsMoveOnePosition : Prop :=
  ∀ (x y : Reg) (s : State) (src : Byte), x ≠ VF →
    src = (if s.params.shiftSrc = .vy then s.getV y else s.getV x) →
    (∃ t, exec (.shr x y) s = .next t ∧ (t.getV VF).toNat = src.toNat % 2 ∧ (t.getV x).toNat = src.toNat / 2 ∧
      RegistersFrame [x, VF] s t) ∧
    (∃ t, exec (.shl x y) s = .next t ∧ (t.getV VF).toNat = src.toNat / 128 ∧ (t.getV x).toNat = src.toNat * 2 % 256 ∧
      RegistersFrame [x, VF] s t)

/-- `8Fy6` leaves `VF` 0, and `8FyE` leaves it twice bit 7 of the value being shifted, under both values of
`SHIFT_SRC`; nothing else changes (rule R173; decision D6, log entry 9). -/
def Obligations.ShiftAliasForms : Prop :=
  ∀ (y : Reg) (s : State) (src : Byte), src = (if s.params.shiftSrc = .vy then s.getV y else s.getV VF) →
    (∃ t, exec (.shr VF y) s = .next t ∧ t.getV VF = 0 ∧ RegistersFrame [VF] s t) ∧
    (∃ t, exec (.shl VF y) s = .next t ∧ (t.getV VF).toNat = 2 * (src.toNat / 128) ∧ RegistersFrame [VF] s t)

/-- `Cxnn` completes from every state: `V[x]` is a drawn byte under the mask `nn`, for whatever byte the draw
returns, the next draw is a fresh one, and nothing else changes (rule R175). `Config.freeByte` has no body, so this
holds for every generator; the count of draws that picks its argument is the model's own (log entry 3). -/
def Obligations.RandomIsADrawUnderTheMask : Prop :=
  ∀ (x : Reg) (nn : Byte) (s : State), ∃ t, exec (.rnd x nn) s = .next t ∧
    t.getV x = Config.freeByte s.draws &&& nn ∧ (∀ b, nn.getLsbD b = false → (t.getV x).getLsbD b = false) ∧
    t.draws = s.draws + 1 ∧ RegistersFrame [x] s { t with draws := s.draws }

/-! ### Index register and memory (spec/42_index_memory.md) -/

/-- `Annn` completes from every state with `I` equal to `nnn`, `Fx1E` with `I` the sum modulo 65536, and `Fx29` with `I`
the exact `V[x] * 5 + 0x050`, the whole byte used (decision D24); nothing else changes, `VF` included (rules R190 to
R192). -/
def Obligations.IndexInstructionsSetI : Prop :=
  ∀ (nnn : BitVec 12) (x : Reg) (s : State),
    (∃ t, exec (.ldINnn nnn) s = .next t ∧ t.i.toNat = nnn.toNat ∧ IndexFrame s t) ∧
    (∃ t, exec (.addIVx x) s = .next t ∧ t.i.toNat = (s.i.toNat + (s.getV x).toNat) % 65536 ∧ IndexFrame s t) ∧
    (∃ t, exec (.ldFVx x) s = .next t ∧ t.i.toNat = (s.getV x).toNat * 5 + 0x050 ∧ IndexFrame s t)

/-- `Fx33` completes when its three bytes lie in memory: the bytes at `I`, `I + 1`, `I + 2` are decimal digits whose
value is `V[x]`, and every other byte and everything else is unchanged (rule R193). -/
def Obligations.BcdStoresTheDecimalDigits : Prop :=
  ∀ (x : Reg) (s : State), s.mem.wf = true → InMemory s 3 →
    ∃ t, exec (.ldBVx x) s = .next t ∧
      100 * (t.memRead s.i.toNat).toNat + 10 * (t.memRead (s.i.toNat + 1)).toNat + (t.memRead (s.i.toNat + 2)).toNat
        = (s.getV x).toNat ∧
      (t.memRead (s.i.toNat + 1)).toNat ≤ 9 ∧ (t.memRead (s.i.toNat + 2)).toNat ≤ 9 ∧ StoreFrame s.i.toNat 3 s t

/-- `Fx55` completes when its bytes lie in memory: `V[r]` is stored at `I + r` for every `r` up to `x`, and every other
byte, `I` and everything else is unchanged (rule R194; `I` unchanged is decision D12). -/
def Obligations.RegisterBlockIsStored : Prop :=
  ∀ (x : Reg) (s : State), s.mem.wf = true → InMemory s (x.val + 1) →
    ∃ t, exec (.ldMemVx x) s = .next t ∧ (∀ r : Reg, r ≤ x → t.memRead (s.i.toNat + r.val) = s.getV r) ∧
      StoreFrame s.i.toNat (x.val + 1) s t

/-- `Fx65` completes when its bytes lie in memory: `V[r]` is the byte at `I + r` for every `r` up to `x`, the registers
above `x`, `I` and everything else are unchanged (rule R195; `I` unchanged is decision D12). -/
def Obligations.RegisterBlockIsLoaded : Prop :=
  ∀ (x : Reg) (s : State), InMemory s (x.val + 1) →
    ∃ t, exec (.ldVxMem x) s = .next t ∧ (∀ r : Reg, r ≤ x → t.getV r = s.memRead (s.i.toNat + r.val)) ∧
      (∀ r : Reg, x < r → t.getV r = s.getV r) ∧ RegistersFrame (mayWrite (.ldVxMem x)) s t

/-- `Fx55` followed by `Fx65` with the same `x` and `I` restores the registers it stored, whatever they and `pc` have
become in between (rule R195). -/
def Obligations.LoadAfterStoreRestoresTheRegisters : Prop :=
  ∀ (x : Reg) (v' : Vector Byte 16) (pc' : Word) (s t u : State), s.mem.wf = true → InMemory s (x.val + 1) →
    exec (.ldMemVx x) s = .next t → exec (.ldVxMem x) { t with v := v', pc := pc' } = .next u →
    ∀ r : Reg, r ≤ x → u.getV r = s.getV r

/-- An access of `Dxyn`, `Fx33`, `Fx55` or `Fx65` with a byte at 4096 or above raises `MemOutOfBounds` with the lowest
such address and changes nothing else (rules R86 and R254, decision D7; log entry 10). -/
def Obligations.AccessOutsideMemoryRaisesMemOutOfBounds : Prop :=
  ∀ (i : Instr) (s : State), 1 ≤ accessSize i → ¬ InMemory s (accessSize i) →
    exec i s = .next { s with fault := some (.memOutOfBounds (if s.i.toNat < 4096 then 0x1000 else s.i)) }

/-! ### Framebuffer (spec/43_display.md) -/

/-- `00E0` completes from every state with every pixel 0 and nothing else changed, `VF` included (rule R210). -/
def Obligations.ClearScreenClearsEveryPixel : Prop :=
  ∀ s : State, ∃ t, exec .cls s = .next t ∧ (∀ r c, t.fb.pixel r c = false) ∧ PixelsFrame [] s t

/-- `Dxyn` completes when its sprite bytes lie in memory, under both edge policies: with `S` the set of placed 1-bits
of the sprite, the framebuffer after is the framebuffer before xor `S`, `VF` is 1 exactly when the framebuffer before
and `S` share a pixel, else 0, and nothing else changes (rules R211 to R213; decisions D5, D7 and D25; `I` unchanged is
decision D12, log entry 16). -/
def Obligations.DrawIsExclusiveOrWithTheSprite : Prop :=
  ∀ (x y : Reg) (n : Fin 16) (s : State), n.val = 0 ∨ InMemory s n.val →
    ∃ t, exec (.drw x y n) s = .next t ∧
      (∀ r c, t.fb.pixel r c =
        (s.fb.pixel r c ^^ spriteCovers s s.i.toNat n.val ((s.getV x).toNat % 64) ((s.getV y).toNat % 32) r c)) ∧
      (t.getV VF = 1 ↔ ∃ r c, s.fb.pixel r c = true ∧
        spriteCovers s s.i.toNat n.val ((s.getV x).toNat % 64) ((s.getV y).toNat % 32) r c = true) ∧
      (t.getV VF = 0 ∨ t.getV VF = 1) ∧ PixelsFrame [VF] s t

/-- Drawing the same sprite twice at the same place gives back the framebuffer, when the position is not taken from
`VF`. The second draw's `VF` is 1 exactly when some placed 1-bit fell on an unlit pixel at first; so, when the first
draw hit nothing, exactly when the sprite has a placed 1-bit, which is what rule R213 (c) says without that premise
(log entry 22). The second draw may run at any `pc`. -/
def Obligations.DrawingTwiceRestoresTheFramebuffer : Prop :=
  ∀ (x y : Reg) (n : Fin 16) (pc' : Word) (s t u : State), x ≠ VF → y ≠ VF → n.val = 0 ∨ InMemory s n.val →
    exec (.drw x y n) s = .next t → exec (.drw x y n) { t with pc := pc' } = .next u →
    SamePixels s u ∧
      (u.getV VF = 1 ↔ ∃ r c, s.fb.pixel r c = false ∧
        spriteCovers s s.i.toNat n.val ((s.getV x).toNat % 64) ((s.getV y).toNat % 32) r c = true) ∧
      (t.getV VF = 0 → (u.getV VF = 1 ↔ ∃ r c,
        spriteCovers s s.i.toNat n.val ((s.getV x).toNat % 64) ((s.getV y).toNat % 32) r c = true))

/-- A sprite that lies wholly on the screen is drawn alike under both edge policies (rule R314). -/
def Obligations.EdgePoliciesAgreeOnTheScreen : Prop :=
  ∀ (x y : Reg) (n : Fin 16) (edge : DrawEdge) (s t : State),
    (s.getV x).toNat % 64 ≤ 56 → (s.getV y).toNat % 32 + n.val ≤ 32 → exec (.drw x y n) s = .next t →
    exec (.drw x y n) { s with params := { s.params with drawEdge := edge } }
      = .next { t with params := { s.params with drawEdge := edge } }

/-! ### Timers and keys (spec/44_timers_keys.md, spec/60_exceptions.md rule R262) -/

/-- `Fx07`, `Fx15` and `Fx18` complete from every state: the delay timer is read into `V[x]`, the delay timer and the
sound timer are written from it, and nothing else changes. Which is which is the spec's decision D15, from general
knowledge (rules R230 to R232; log entry 11). -/
def Obligations.TimerInstructionsMoveOneByte : Prop :=
  ∀ (x : Reg) (s : State),
    (∃ t, exec (.ldVxDt x) s = .next t ∧ t.getV x = s.dt ∧ RegistersFrame [x] s t) ∧
    (exec (.ldDtVx x) s = .next { s with dt := s.getV x }) ∧
    (exec (.ldStVx x) s = .next { s with st := s.getV x })

/-- `Fx0A` completes when a key is held: `V[x]` is the key's code and nothing else changes, `pc` staying past the
instruction. With no key held the step waits: `pc` goes back to the instruction's own address and nothing else
changes (rule R233). -/
def Obligations.KeyWaitLoadsTheHeldKeyOrRepeats : Prop :=
  ∀ (x : Reg) (ipc : Word) (s : State), s.pc = ipc + 2 →
    (∀ k, s.key = some k → ∃ t, exec (.ldVxK x) s = .next t ∧ (t.getV x).toNat = k.toNat ∧ RegistersFrame [x] s t) ∧
    (s.key = none → exec (.ldVxK x) s = .next { s with pc := ipc })

/-- `n` ticks take each timer down by `n`, floored at zero and independently, and change nothing else, as long as no
fault is latched (rule R262). -/
def Obligations.TicksCountBothTimersDown : Prop :=
  ∀ (n : Nat) (s : State), s.fault = none →
    (timerTick^[n] s).dt.toNat = s.dt.toNat - n ∧ (timerTick^[n] s).st.toNat = s.st.toNat - n ∧
      timerTick^[n] s = { s with dt := (timerTick^[n] s).dt, st := (timerTick^[n] s).st }

/-! ### The other ports and the host (spec/70_reset_and_hazards.md, spec/60_exceptions.md section 7) -/

/-- `load` copies the image from address 0, leaves the bytes above it and all other state as they were, and refuses
an image over 4096 bytes (rule R303). The window in which it may happen is the spec's decision D20 (log entry 8): a load
outside it is refused, every step closes it, a reset opens it, and a tick, a key write or an observation leaves it as
it was. -/
def Obligations.LoadCopiesTheImage : Prop :=
  ∀ (image : List Byte) (z : Session),
    (z.loadOpen = true → z.core.mem.wf = true → image.length ≤ 4096 →
      ∃ z', z.apply (.load image) = .next z' ∧ (∀ (a : Nat) (h : a < image.length), z'.core.memRead a = image[a]) ∧
        (∀ a, image.length ≤ a → z'.core.memRead a = z.core.memRead a) ∧ z'.loadOpen = true ∧
        z'.core = { z.core with mem := z'.core.mem }) ∧
    (z.loadOpen = true → 4096 < image.length → z.apply (.load image) = .fault (.programTooLarge image.length)) ∧
    (z.loadOpen = false → z.apply (.load image) = .refused .loadOutsideWindow) ∧
    (∀ z', z.apply .step = .next z' → z'.apply (.load image) = .refused .loadOutsideWindow) ∧
    (∀ z', z.apply .reset = .next z' → z'.loadOpen = true) ∧
    (∀ k, ∀ e ∈ [Event.tick, .key k, .observe], ∀ z', z.apply e = .next z' → z'.loadOpen = z.loadOpen)

/-- The loader's image has the address map of rule R81: 4096 bytes, the font at 0x050, the program at 0x200, zero
everywhere else; a program over 3584 bytes is refused (rule R304). -/
def Obligations.LoaderImageHasTheAddressMap : Prop :=
  ∀ (font : Vector Byte 80) (program : List Byte),
    (program.length ≤ 3584 → ∃ image, loaderImage font program = .next image ∧ image.length = 4096 ∧
      ∀ a : Nat, a < 4096 → image.getD a 0 =
        if h : 0x050 ≤ a ∧ a < 0x0A0 then font[a - 0x050]'(by omega)
        else if 0x200 ≤ a then program.getD (a - 0x200) 0 else 0) ∧
    (3584 < program.length → loaderImage font program = .fault (.programTooLarge program.length))

/-- The key port writes the key cell and nothing else (rule R47); the reset port puts every piece of state that the
spec gives the machine to its reset value, latch included (rules R257 and R300; the values that are decision D10 are in
log entry 4). The model's own two fields, which the spec does not count as state, keep their values: the parameters
(DESIGN CHOICE, log entry 2) and the count of draws (DESIGN CHOICE, log entry 3). -/
def Obligations.KeyAndResetPorts : Prop :=
  ∀ (k : Option Key) (z : Session),
    z.apply (.key k) = .next { z with core := { z.core with key := k } } ∧
    z.apply .reset = .next { core := { State.reset with params := z.core.params, draws := z.core.draws }, loadOpen := true }

/-- The debug controller changes the core only by calling `step()`: after an iteration the core is as it was or as
one step leaves it (rule R270). -/
def Obligations.DebuggerChangesTheCoreOnlyByStepping : Prop :=
  ∀ (d d' : Debugger) (s s' : State) (reply : DebugReply), d.iterate s = .next (d', s', reply) → s' = s ∨ step s = .next s'

/-- `continue` takes one step before a breakpoint can hit, also when it starts at a breakpoint address; and when the
`pc` right after that single step is a breakpoint address, the controller stops there without a further step (rules
R273, R277, R278 and R279). That this also holds when the step faults, or runs on an already faulted core, is the model's
choice: the controller stays in `Running` then, where the spec names no transition (N12; DESIGN CHOICE, log entry 23). -/
def Obligations.BreakpointsHitAfterOneSuppressedIteration : Prop :=
  ∀ (d : Debugger) (s t : State), d.mode = .paused → step s = .next t → t.pc ∈ d.breakpoints →
    ∃ d1 d2 d3, d.command .continue s = .next (d1, .none) ∧ d1.iterate s = .next (d2, t, .none) ∧
      d2.iterate t = .next (d3, t, .none) ∧ d3.mode = .breakpointHit
end

