-- ==== Sys2Proof/Laws/State.lean ====
section
/-! SUPPORT. Laws/State.lean: what each update of the state does to each field, so that no later proof unfolds a
record update, and what it does to a register and to a byte of memory. -/

namespace Sys2Proof.Machine

variable (s : State)

/-! ### State.setV -/

@[simp] theorem State.setV_v (x : Reg) (b : Byte) : (s.setV x b).v = s.v.set x b := rfl
@[simp] theorem State.setV_pc (x : Reg) (b : Byte) : (s.setV x b).pc = s.pc := rfl
@[simp] theorem State.setV_i (x : Reg) (b : Byte) : (s.setV x b).i = s.i := rfl
@[simp] theorem State.setV_stack (x : Reg) (b : Byte) : (s.setV x b).stack = s.stack := rfl
@[simp] theorem State.setV_dt (x : Reg) (b : Byte) : (s.setV x b).dt = s.dt := rfl
@[simp] theorem State.setV_st (x : Reg) (b : Byte) : (s.setV x b).st = s.st := rfl
@[simp] theorem State.setV_mem (x : Reg) (b : Byte) : (s.setV x b).mem = s.mem := rfl
@[simp] theorem State.setV_fb (x : Reg) (b : Byte) : (s.setV x b).fb = s.fb := rfl
@[simp] theorem State.setV_key (x : Reg) (b : Byte) : (s.setV x b).key = s.key := rfl
@[simp] theorem State.setV_fault (x : Reg) (b : Byte) : (s.setV x b).fault = s.fault := rfl
@[simp] theorem State.setV_params (x : Reg) (b : Byte) : (s.setV x b).params = s.params := rfl
@[simp] theorem State.setV_draws (x : Reg) (b : Byte) : (s.setV x b).draws = s.draws := rfl

/-! ### State.setPc -/

@[simp] theorem State.setPc_v (w : Word) : (s.setPc w).v = s.v := rfl
@[simp] theorem State.setPc_pc (w : Word) : (s.setPc w).pc = w := rfl
@[simp] theorem State.setPc_i (w : Word) : (s.setPc w).i = s.i := rfl
@[simp] theorem State.setPc_stack (w : Word) : (s.setPc w).stack = s.stack := rfl
@[simp] theorem State.setPc_dt (w : Word) : (s.setPc w).dt = s.dt := rfl
@[simp] theorem State.setPc_st (w : Word) : (s.setPc w).st = s.st := rfl
@[simp] theorem State.setPc_mem (w : Word) : (s.setPc w).mem = s.mem := rfl
@[simp] theorem State.setPc_fb (w : Word) : (s.setPc w).fb = s.fb := rfl
@[simp] theorem State.setPc_key (w : Word) : (s.setPc w).key = s.key := rfl
@[simp] theorem State.setPc_fault (w : Word) : (s.setPc w).fault = s.fault := rfl
@[simp] theorem State.setPc_params (w : Word) : (s.setPc w).params = s.params := rfl
@[simp] theorem State.setPc_draws (w : Word) : (s.setPc w).draws = s.draws := rfl

/-! ### State.setI -/

@[simp] theorem State.setI_v (w : Word) : (s.setI w).v = s.v := rfl
@[simp] theorem State.setI_pc (w : Word) : (s.setI w).pc = s.pc := rfl
@[simp] theorem State.setI_i (w : Word) : (s.setI w).i = w := rfl
@[simp] theorem State.setI_stack (w : Word) : (s.setI w).stack = s.stack := rfl
@[simp] theorem State.setI_dt (w : Word) : (s.setI w).dt = s.dt := rfl
@[simp] theorem State.setI_st (w : Word) : (s.setI w).st = s.st := rfl
@[simp] theorem State.setI_mem (w : Word) : (s.setI w).mem = s.mem := rfl
@[simp] theorem State.setI_fb (w : Word) : (s.setI w).fb = s.fb := rfl
@[simp] theorem State.setI_key (w : Word) : (s.setI w).key = s.key := rfl
@[simp] theorem State.setI_fault (w : Word) : (s.setI w).fault = s.fault := rfl
@[simp] theorem State.setI_params (w : Word) : (s.setI w).params = s.params := rfl
@[simp] theorem State.setI_draws (w : Word) : (s.setI w).draws = s.draws := rfl

/-! ### State.setDt -/

@[simp] theorem State.setDt_v (b : Byte) : (s.setDt b).v = s.v := rfl
@[simp] theorem State.setDt_pc (b : Byte) : (s.setDt b).pc = s.pc := rfl
@[simp] theorem State.setDt_i (b : Byte) : (s.setDt b).i = s.i := rfl
@[simp] theorem State.setDt_stack (b : Byte) : (s.setDt b).stack = s.stack := rfl
@[simp] theorem State.setDt_dt (b : Byte) : (s.setDt b).dt = b := rfl
@[simp] theorem State.setDt_st (b : Byte) : (s.setDt b).st = s.st := rfl
@[simp] theorem State.setDt_mem (b : Byte) : (s.setDt b).mem = s.mem := rfl
@[simp] theorem State.setDt_fb (b : Byte) : (s.setDt b).fb = s.fb := rfl
@[simp] theorem State.setDt_key (b : Byte) : (s.setDt b).key = s.key := rfl
@[simp] theorem State.setDt_fault (b : Byte) : (s.setDt b).fault = s.fault := rfl
@[simp] theorem State.setDt_params (b : Byte) : (s.setDt b).params = s.params := rfl
@[simp] theorem State.setDt_draws (b : Byte) : (s.setDt b).draws = s.draws := rfl

/-! ### State.setSt -/

@[simp] theorem State.setSt_v (b : Byte) : (s.setSt b).v = s.v := rfl
@[simp] theorem State.setSt_pc (b : Byte) : (s.setSt b).pc = s.pc := rfl
@[simp] theorem State.setSt_i (b : Byte) : (s.setSt b).i = s.i := rfl
@[simp] theorem State.setSt_stack (b : Byte) : (s.setSt b).stack = s.stack := rfl
@[simp] theorem State.setSt_dt (b : Byte) : (s.setSt b).dt = s.dt := rfl
@[simp] theorem State.setSt_st (b : Byte) : (s.setSt b).st = b := rfl
@[simp] theorem State.setSt_mem (b : Byte) : (s.setSt b).mem = s.mem := rfl
@[simp] theorem State.setSt_fb (b : Byte) : (s.setSt b).fb = s.fb := rfl
@[simp] theorem State.setSt_key (b : Byte) : (s.setSt b).key = s.key := rfl
@[simp] theorem State.setSt_fault (b : Byte) : (s.setSt b).fault = s.fault := rfl
@[simp] theorem State.setSt_params (b : Byte) : (s.setSt b).params = s.params := rfl
@[simp] theorem State.setSt_draws (b : Byte) : (s.setSt b).draws = s.draws := rfl

/-! ### State.setStack -/

@[simp] theorem State.setStack_v (l : List Word) : (s.setStack l).v = s.v := rfl
@[simp] theorem State.setStack_pc (l : List Word) : (s.setStack l).pc = s.pc := rfl
@[simp] theorem State.setStack_i (l : List Word) : (s.setStack l).i = s.i := rfl
@[simp] theorem State.setStack_stack (l : List Word) : (s.setStack l).stack = l := rfl
@[simp] theorem State.setStack_dt (l : List Word) : (s.setStack l).dt = s.dt := rfl
@[simp] theorem State.setStack_st (l : List Word) : (s.setStack l).st = s.st := rfl
@[simp] theorem State.setStack_mem (l : List Word) : (s.setStack l).mem = s.mem := rfl
@[simp] theorem State.setStack_fb (l : List Word) : (s.setStack l).fb = s.fb := rfl
@[simp] theorem State.setStack_key (l : List Word) : (s.setStack l).key = s.key := rfl
@[simp] theorem State.setStack_fault (l : List Word) : (s.setStack l).fault = s.fault := rfl
@[simp] theorem State.setStack_params (l : List Word) : (s.setStack l).params = s.params := rfl
@[simp] theorem State.setStack_draws (l : List Word) : (s.setStack l).draws = s.draws := rfl

/-! ### State.setFb -/

@[simp] theorem State.setFb_v (f : Frame) : (s.setFb f).v = s.v := rfl
@[simp] theorem State.setFb_pc (f : Frame) : (s.setFb f).pc = s.pc := rfl
@[simp] theorem State.setFb_i (f : Frame) : (s.setFb f).i = s.i := rfl
@[simp] theorem State.setFb_stack (f : Frame) : (s.setFb f).stack = s.stack := rfl
@[simp] theorem State.setFb_dt (f : Frame) : (s.setFb f).dt = s.dt := rfl
@[simp] theorem State.setFb_st (f : Frame) : (s.setFb f).st = s.st := rfl
@[simp] theorem State.setFb_mem (f : Frame) : (s.setFb f).mem = s.mem := rfl
@[simp] theorem State.setFb_fb (f : Frame) : (s.setFb f).fb = f := rfl
@[simp] theorem State.setFb_key (f : Frame) : (s.setFb f).key = s.key := rfl
@[simp] theorem State.setFb_fault (f : Frame) : (s.setFb f).fault = s.fault := rfl
@[simp] theorem State.setFb_params (f : Frame) : (s.setFb f).params = s.params := rfl
@[simp] theorem State.setFb_draws (f : Frame) : (s.setFb f).draws = s.draws := rfl

/-! ### State.setKey -/

@[simp] theorem State.setKey_v (k : Option Key) : (s.setKey k).v = s.v := rfl
@[simp] theorem State.setKey_pc (k : Option Key) : (s.setKey k).pc = s.pc := rfl
@[simp] theorem State.setKey_i (k : Option Key) : (s.setKey k).i = s.i := rfl
@[simp] theorem State.setKey_stack (k : Option Key) : (s.setKey k).stack = s.stack := rfl
@[simp] theorem State.setKey_dt (k : Option Key) : (s.setKey k).dt = s.dt := rfl
@[simp] theorem State.setKey_st (k : Option Key) : (s.setKey k).st = s.st := rfl
@[simp] theorem State.setKey_mem (k : Option Key) : (s.setKey k).mem = s.mem := rfl
@[simp] theorem State.setKey_fb (k : Option Key) : (s.setKey k).fb = s.fb := rfl
@[simp] theorem State.setKey_key (k : Option Key) : (s.setKey k).key = k := rfl
@[simp] theorem State.setKey_fault (k : Option Key) : (s.setKey k).fault = s.fault := rfl
@[simp] theorem State.setKey_params (k : Option Key) : (s.setKey k).params = s.params := rfl
@[simp] theorem State.setKey_draws (k : Option Key) : (s.setKey k).draws = s.draws := rfl

/-! ### State.raise -/

@[simp] theorem State.raise_v (f : FaultRecord) : (s.raise f).v = s.v := rfl
@[simp] theorem State.raise_pc (f : FaultRecord) : (s.raise f).pc = s.pc := rfl
@[simp] theorem State.raise_i (f : FaultRecord) : (s.raise f).i = s.i := rfl
@[simp] theorem State.raise_stack (f : FaultRecord) : (s.raise f).stack = s.stack := rfl
@[simp] theorem State.raise_dt (f : FaultRecord) : (s.raise f).dt = s.dt := rfl
@[simp] theorem State.raise_st (f : FaultRecord) : (s.raise f).st = s.st := rfl
@[simp] theorem State.raise_mem (f : FaultRecord) : (s.raise f).mem = s.mem := rfl
@[simp] theorem State.raise_fb (f : FaultRecord) : (s.raise f).fb = s.fb := rfl
@[simp] theorem State.raise_key (f : FaultRecord) : (s.raise f).key = s.key := rfl
@[simp] theorem State.raise_fault (f : FaultRecord) : (s.raise f).fault = some f := rfl
@[simp] theorem State.raise_params (f : FaultRecord) : (s.raise f).params = s.params := rfl
@[simp] theorem State.raise_draws (f : FaultRecord) : (s.raise f).draws = s.draws := rfl

/-! ### State.draw -/

@[simp] theorem State.draw_v : s.draw.2.v = s.v := rfl
@[simp] theorem State.draw_pc : s.draw.2.pc = s.pc := rfl
@[simp] theorem State.draw_i : s.draw.2.i = s.i := rfl
@[simp] theorem State.draw_stack : s.draw.2.stack = s.stack := rfl
@[simp] theorem State.draw_dt : s.draw.2.dt = s.dt := rfl
@[simp] theorem State.draw_st : s.draw.2.st = s.st := rfl
@[simp] theorem State.draw_mem : s.draw.2.mem = s.mem := rfl
@[simp] theorem State.draw_fb : s.draw.2.fb = s.fb := rfl
@[simp] theorem State.draw_key : s.draw.2.key = s.key := rfl
@[simp] theorem State.draw_fault : s.draw.2.fault = s.fault := rfl
@[simp] theorem State.draw_params : s.draw.2.params = s.params := rfl
@[simp] theorem State.draw_draws : s.draw.2.draws = s.draws + 1 := rfl

@[simp] theorem State.draw_byte : s.draw.1 = Config.freeByte s.draws := rfl

/-! ### State.memWrite -/

@[simp] theorem State.memWrite_v (a : Nat) (v : Byte) : (s.memWrite a v).v = s.v := by unfold State.memWrite; split <;> rfl
@[simp] theorem State.memWrite_pc (a : Nat) (v : Byte) : (s.memWrite a v).pc = s.pc := by unfold State.memWrite; split <;> rfl
@[simp] theorem State.memWrite_i (a : Nat) (v : Byte) : (s.memWrite a v).i = s.i := by unfold State.memWrite; split <;> rfl
@[simp] theorem State.memWrite_stack (a : Nat) (v : Byte) : (s.memWrite a v).stack = s.stack := by unfold State.memWrite; split <;> rfl
@[simp] theorem State.memWrite_dt (a : Nat) (v : Byte) : (s.memWrite a v).dt = s.dt := by unfold State.memWrite; split <;> rfl
@[simp] theorem State.memWrite_st (a : Nat) (v : Byte) : (s.memWrite a v).st = s.st := by unfold State.memWrite; split <;> rfl
@[simp] theorem State.memWrite_fb (a : Nat) (v : Byte) : (s.memWrite a v).fb = s.fb := by unfold State.memWrite; split <;> rfl
@[simp] theorem State.memWrite_key (a : Nat) (v : Byte) : (s.memWrite a v).key = s.key := by unfold State.memWrite; split <;> rfl
@[simp] theorem State.memWrite_fault (a : Nat) (v : Byte) : (s.memWrite a v).fault = s.fault := by unfold State.memWrite; split <;> rfl
@[simp] theorem State.memWrite_params (a : Nat) (v : Byte) : (s.memWrite a v).params = s.params := by unfold State.memWrite; split <;> rfl
@[simp] theorem State.memWrite_draws (a : Nat) (v : Byte) : (s.memWrite a v).draws = s.draws := by unfold State.memWrite; split <;> rfl

theorem State.memWrite_mem (a : Nat) (v : Byte) :
    (s.memWrite a v).mem = if a < Config.memSize then s.mem.write a v else s.mem := by
  unfold State.memWrite; split <;> rfl

/-! ### State.memWriteList -/

@[simp] theorem State.memWriteList_v (l : List Byte) : ∀ (s : State) (a : Nat), (s.memWriteList a l).v = s.v := by
  induction l with
  | nil => intros; rfl
  | cons b rest ih => intro s a; simp [State.memWriteList, ih]

@[simp] theorem State.memWriteList_pc (l : List Byte) : ∀ (s : State) (a : Nat), (s.memWriteList a l).pc = s.pc := by
  induction l with
  | nil => intros; rfl
  | cons b rest ih => intro s a; simp [State.memWriteList, ih]

@[simp] theorem State.memWriteList_i (l : List Byte) : ∀ (s : State) (a : Nat), (s.memWriteList a l).i = s.i := by
  induction l with
  | nil => intros; rfl
  | cons b rest ih => intro s a; simp [State.memWriteList, ih]

@[simp] theorem State.memWriteList_stack (l : List Byte) : ∀ (s : State) (a : Nat), (s.memWriteList a l).stack = s.stack := by
  induction l with
  | nil => intros; rfl
  | cons b rest ih => intro s a; simp [State.memWriteList, ih]

@[simp] theorem State.memWriteList_dt (l : List Byte) : ∀ (s : State) (a : Nat), (s.memWriteList a l).dt = s.dt := by
  induction l with
  | nil => intros; rfl
  | cons b rest ih => intro s a; simp [State.memWriteList, ih]

@[simp] theorem State.memWriteList_st (l : List Byte) : ∀ (s : State) (a : Nat), (s.memWriteList a l).st = s.st := by
  induction l with
  | nil => intros; rfl
  | cons b rest ih => intro s a; simp [State.memWriteList, ih]

@[simp] theorem State.memWriteList_fb (l : List Byte) : ∀ (s : State) (a : Nat), (s.memWriteList a l).fb = s.fb := by
  induction l with
  | nil => intros; rfl
  | cons b rest ih => intro s a; simp [State.memWriteList, ih]

@[simp] theorem State.memWriteList_key (l : List Byte) : ∀ (s : State) (a : Nat), (s.memWriteList a l).key = s.key := by
  induction l with
  | nil => intros; rfl
  | cons b rest ih => intro s a; simp [State.memWriteList, ih]

@[simp] theorem State.memWriteList_fault (l : List Byte) : ∀ (s : State) (a : Nat), (s.memWriteList a l).fault = s.fault := by
  induction l with
  | nil => intros; rfl
  | cons b rest ih => intro s a; simp [State.memWriteList, ih]

@[simp] theorem State.memWriteList_params (l : List Byte) : ∀ (s : State) (a : Nat), (s.memWriteList a l).params = s.params := by
  induction l with
  | nil => intros; rfl
  | cons b rest ih => intro s a; simp [State.memWriteList, ih]

@[simp] theorem State.memWriteList_draws (l : List Byte) : ∀ (s : State) (a : Nat), (s.memWriteList a l).draws = s.draws := by
  induction l with
  | nil => intros; rfl
  | cons b rest ih => intro s a; simp [State.memWriteList, ih]

/-! ### Registers -/

/-- Reading a register after a register write. -/
theorem State.getV_setV (x r : Reg) (b : Byte) : (s.setV x b).getV r = if r = x then b else s.getV r := by
  simp only [State.getV, State.setV, Fin.getElem_fin, Vector.getElem_set]
  by_cases h : r = x
  · simp [h]
  · have : ¬ (x.val = r.val) := fun e => h (Fin.ext e.symm)
    simp [h, this]

@[simp] theorem State.getV_setV_same (x : Reg) (b : Byte) : (s.setV x b).getV x = b := by
  simp [State.getV_setV]

theorem State.getV_setV_of_ne {x r : Reg} (h : r ≠ x) (b : Byte) : (s.setV x b).getV r = s.getV r := by
  simp [State.getV_setV, h]

/-- Two states with the same registers read the same. -/
theorem State.getV_congr {s t : State} (h : t.v = s.v) (r : Reg) : t.getV r = s.getV r := by
  simp [State.getV, h]

@[simp] theorem State.getV_setPc (w : Word) (r : Reg) : (s.setPc w).getV r = s.getV r := rfl
@[simp] theorem State.getV_setI (w : Word) (r : Reg) : (s.setI w).getV r = s.getV r := rfl
@[simp] theorem State.getV_setDt (b : Byte) (r : Reg) : (s.setDt b).getV r = s.getV r := rfl
@[simp] theorem State.getV_setSt (b : Byte) (r : Reg) : (s.setSt b).getV r = s.getV r := rfl
@[simp] theorem State.getV_setStack (l : List Word) (r : Reg) : (s.setStack l).getV r = s.getV r := rfl
@[simp] theorem State.getV_setFb (f : Frame) (r : Reg) : (s.setFb f).getV r = s.getV r := rfl
@[simp] theorem State.getV_setKey (k : Option Key) (r : Reg) : (s.setKey k).getV r = s.getV r := rfl
@[simp] theorem State.getV_raise (f : FaultRecord) (r : Reg) : (s.raise f).getV r = s.getV r := rfl
@[simp] theorem State.getV_draw (r : Reg) : s.draw.2.getV r = s.getV r := rfl
@[simp] theorem State.getV_memWrite (a : Nat) (v : Byte) (r : Reg) : (s.memWrite a v).getV r = s.getV r :=
  State.getV_congr (by simp) r
@[simp] theorem State.getV_memWriteList (a : Nat) (l : List Byte) (r : Reg) : (s.memWriteList a l).getV r = s.getV r :=
  State.getV_congr (by simp) r

/-! ### Bytes of memory -/

@[simp] theorem State.memRead_setV (x : Reg) (b : Byte) (c : Nat) : (s.setV x b).memRead c = s.memRead c := rfl
@[simp] theorem State.memRead_setPc (w : Word) (c : Nat) : (s.setPc w).memRead c = s.memRead c := rfl
@[simp] theorem State.memRead_setI (w : Word) (c : Nat) : (s.setI w).memRead c = s.memRead c := rfl
@[simp] theorem State.memRead_setDt (b : Byte) (c : Nat) : (s.setDt b).memRead c = s.memRead c := rfl
@[simp] theorem State.memRead_setSt (b : Byte) (c : Nat) : (s.setSt b).memRead c = s.memRead c := rfl
@[simp] theorem State.memRead_setStack (l : List Word) (c : Nat) : (s.setStack l).memRead c = s.memRead c := rfl
@[simp] theorem State.memRead_setFb (f : Frame) (c : Nat) : (s.setFb f).memRead c = s.memRead c := rfl
@[simp] theorem State.memRead_setKey (k : Option Key) (c : Nat) : (s.setKey k).memRead c = s.memRead c := rfl
@[simp] theorem State.memRead_raise (f : FaultRecord) (c : Nat) : (s.raise f).memRead c = s.memRead c := rfl
@[simp] theorem State.memRead_draw (c : Nat) : s.draw.2.memRead c = s.memRead c := rfl

end Sys2Proof.Machine
end

