-- ==== Sys2Proof/Laws/Agents.lean ====
section
/-! SUPPORT. Laws/Agents.lean: what each event does to a session, and what fairness gives a program that waits for the
delay timer (rules R262, R263 and R317). -/

namespace Sys2Proof.Machine

/-! ### One event -/

@[simp] theorem Session.apply_reset (z : Session) :
    z.apply .reset = .next { core := resetPort z.core, loadOpen := true } := rfl
@[simp] theorem Session.apply_tick (z : Session) : z.apply .tick = .next { z with core := timerTick z.core } := rfl
@[simp] theorem Session.apply_key (z : Session) (k : Option Key) : z.apply (.key k) = .next { z with core := keyPort k z.core } := rfl
@[simp] theorem Session.apply_observe (z : Session) : z.apply .observe = .next z := rfl

/-- A step event that goes on: the core has stepped and the load window is shut. -/
theorem Session.apply_step_eq_next {z z' : Session} (h : z.apply .step = .next z') :
    Sys2Proof.Machine.step z.core = .next z'.core ∧ z'.loadOpen = false := by
  simp only [Session.apply] at h
  cases hs : Sys2Proof.Machine.step z.core with
  | next t => rw [hs] at h; injection h with h; subst h; exact ⟨rfl, rfl⟩
  | fault r => rw [hs] at h; cases h
  | refused r => rw [hs] at h; cases h

/-- A load that goes on: the window was open and stays so, and the image has been copied. -/
theorem Session.apply_load_eq_next {image : List Byte} {z z' : Session} (h : z.apply (.load image) = .next z') :
    z.loadOpen = true ∧ z' = { core := z.core.memWriteList 0 image, loadOpen := true } := by
  simp only [Session.apply, loadPort] at h
  split at h
  · next hw =>
    split at h
    · injection h with h; exact ⟨hw, h.symm⟩
    · cases h
  · cases h

/-! ### The tick -/

/-- A tick takes a timer down by one, floored at zero. -/
theorem countDown_toNat (t : Byte) : (countDown t).toNat = t.toNat - 1 := by
  unfold countDown
  split <;> bv_omega

/-- A tick on a core without a latched fault writes the two timers and nothing else. -/
theorem timerTick_of_no_fault {s : State} (h : s.fault = none) :
    timerTick s = (s.setDt (countDown s.dt)).setSt (countDown s.st) := by
  unfold timerTick
  rw [h]

/-! ### Fairness -/

/-- Where no reset falls and no step writes the delay timer, no event raises it: "`DT` never rises by itself" (rule
R263). -/
theorem Session.apply_dt_le {e : Event} {z z' : Session} (h : z.apply e = .next z') (hr : e ≠ .reset)
    (hw : e = .step → z'.core.dt = z.core.dt) : z'.core.dt.toNat ≤ z.core.dt.toNat := by
  cases e with
  | reset => exact absurd rfl hr
  | load image => rw [(Session.apply_load_eq_next h).2]; simp
  | step => rw [hw rfl]
  | tick =>
    rw [Session.apply_tick] at h
    injection h with h
    subst h
    show (timerTick z.core).dt.toNat ≤ _
    cases hf : z.core.fault with
    | some f => unfold timerTick; rw [hf]
    | none =>
      rw [timerTick_of_no_fault hf]
      show (countDown z.core.dt).toNat ≤ _
      rw [countDown_toNat]
      omega
  | key k => rw [Session.apply_key] at h; injection h with h; subst h; exact le_refl _
  | observe => rw [Session.apply_observe] at h; injection h with h; subst h; exact le_refl _

/-- From point `n0` of a run on nothing but ticks touches the delay timer: no fault is latched, no reset falls, and no
step writes it. -/
def Schedule.DelayQuietFrom (sched : Schedule) (run : Nat → Session) (n0 : Nat) : Prop :=
  ∀ n, n0 ≤ n → (run n).core.fault = none ∧ sched n ≠ .reset ∧ (sched n = .step → (run (n + 1)).core.dt = (run n).core.dt)

/-- In such a stretch the delay timer never rises. -/
theorem Schedule.dt_antitone {sched : Schedule} {run : Nat → Session} (hrun : sched.IsRun run) {n0 : Nat}
    (quiet : sched.DelayQuietFrom run n0) {n : Nat} (hn : n0 ≤ n) : ∀ k, (run (n + k)).core.dt.toNat ≤ (run n).core.dt.toNat
  | 0 => le_refl _
  | k + 1 =>
    have q := quiet (n + k) (by omega)
    le_trans (Session.apply_dt_le (hrun (n + k)) q.2.1 q.2.2) (Schedule.dt_antitone hrun quiet hn k)

/-- What fairness gives (rule R263): in a fair run whose steps keep coming, once nothing but ticks touches the delay
timer, the timer reaches 0 and stays there, so a loop that polls it until it reads 0 eventually leaves. -/
theorem Schedule.dt_reaches_zero {sched : Schedule} {run : Nat → Session} (hrun : sched.IsRun run) (fair : sched.Fair)
    (steps : sched.keepsComing .step) {n0 : Nat} (quiet : sched.DelayQuietFrom run n0) :
    ∃ n, n0 ≤ n ∧ ∀ k, (run (n + k)).core.dt = 0 := by
  have down : ∀ b n, n0 ≤ n → (run n).core.dt.toNat ≤ b → ∃ m, n0 ≤ m ∧ (run m).core.dt.toNat = 0 := by
    intro b
    induction b with
    | zero => exact fun n hn hb => ⟨n, hn, by omega⟩
    | succ b ih =>
      intro n hn hb
      obtain ⟨m, hm, ht⟩ := fair steps n
      have hle := Schedule.dt_antitone hrun quiet hn (m - n)
      rw [show n + (m - n) = m by omega] at hle
      have hstep := hrun m
      rw [ht, Session.apply_tick, timerTick_of_no_fault (quiet m (by omega)).1] at hstep
      injection hstep with hstep
      have hd : (run (m + 1)).core.dt.toNat = (run m).core.dt.toNat - 1 := by
        rw [← hstep]; exact countDown_toNat _
      exact ih (m + 1) (by omega) (by omega)
  obtain ⟨m, hm, hz⟩ := down _ n0 (le_refl n0) (le_refl _)
  refine ⟨m, hm, fun k => BitVec.eq_of_toNat_eq ?_⟩
  have := Schedule.dt_antitone hrun quiet hm k
  rw [hz] at this
  simpa using this

end Sys2Proof.Machine
end

