-- ==== Sys2Proof/Laws/Decode.lean ====
section
/-! SUPPORT. Laws/Decode.lean: the fields of a word put together from fields (spec/30_encoding.md rule R111), and the
bytes of a word (rule R83). -/

namespace Sys2Proof

/-- Each value of a field comes back from a word that holds it, whatever stands in the other bits. -/
theorem xField_eq {w : Word} {x : Reg} (h : w.toNat / 256 % 16 = x.val) : xField w = x := by
  apply Fin.ext; simpa [xField] using h

theorem yField_eq {w : Word} {y : Reg} (h : w.toNat / 16 % 16 = y.val) : yField w = y := by
  apply Fin.ext; simpa [yField] using h

theorem nField_eq {w : Word} {n : Fin 16} (h : w.toNat % 16 = n.val) : nField w = n := by
  apply Fin.ext; simpa [nField] using h

theorem nnField_eq {w : Word} {nn : Byte} (h : w.toNat % 256 = nn.toNat) : nnField w = nn := by
  apply BitVec.eq_of_toNat_eq; simpa [nnField] using h

theorem nnnField_eq {w : Word} {nnn : BitVec 12} (h : w.toNat % 4096 = nnn.toNat) : nnnField w = nnn := by
  apply BitVec.eq_of_toNat_eq; simpa [nnnField] using h

/-- The number of a word put together from a row's match value and fields. -/
theorem toNat_wordNnn {base : Nat} (hb : base + 4095 < 65536) (nnn : BitVec 12) : (wordNnn base nnn).toNat = base + nnn.toNat := by
  have := nnn.isLt
  simp only [wordNnn, BitVec.toNat_ofNat]; omega

theorem toNat_wordXNn {base : Nat} (hb : base + 4095 < 65536) (x : Reg) (nn : Byte) :
    (wordXNn base x nn).toNat = base + 256 * x.val + nn.toNat := by
  have := x.isLt
  have := nn.isLt
  simp only [wordXNn, BitVec.toNat_ofNat]; omega

theorem toNat_wordXY {base : Nat} (hb : base + 4080 < 65536) (x y : Reg) :
    (wordXY base x y).toNat = base + 256 * x.val + 16 * y.val := by
  have := x.isLt
  have := y.isLt
  simp only [wordXY, BitVec.toNat_ofNat]; omega

theorem toNat_wordX {base : Nat} (hb : base + 3840 < 65536) (x : Reg) : (wordX base x).toNat = base + 256 * x.val := by
  have := x.isLt
  simp only [wordX, BitVec.toNat_ofNat]; omega

/-- Laying a word out in memory order and combining it again gives it back (rule R83). -/
theorem wordOfBytes_bytesOfWord (w : Word) : wordOfBytes (bytesOfWord w).1 (bytesOfWord w).2 = w := by
  apply BitVec.eq_of_getLsbD_eq
  intro i hi
  simp only [wordOfBytes, bytesOfWord, BitVec.getLsbD_append, BitVec.getLsbD_extractLsb']
  by_cases h : i < 8
  · simp [h]
  · simp [h, show i - 8 < 8 by omega, show 8 + (i - 8) = i by omega]

/-! ### A word under the masks of rule R115 -/

theorem and_or_mask (w m k : Word) : w &&& (m ||| k) = (w &&& m) ||| (w &&& k) := by
  apply BitVec.eq_of_getLsbD_eq
  intro i hi
  simp [Bool.and_or_distrib_left]

/-- Masking a word to its class digit. -/
theorem toNat_and_F000 (w : Word) : (w &&& 0xF000#16).toNat = 4096 * (w.toNat / 4096) := by
  have h : w &&& 0xF000#16 = (w >>> 12) <<< 12 := by
    apply BitVec.eq_of_getLsbD_eq
    intro i hi
    interval_cases i <;> simp
  rw [h]
  have := w.isLt
  simp only [BitVec.toNat_shiftLeft, BitVec.toNat_ushiftRight, Nat.shiftRight_eq_div_pow, Nat.shiftLeft_eq]
  omega

theorem toNat_and_000F (w : Word) : (w &&& 0x000F#16).toNat = w.toNat % 16 := by
  rw [BitVec.toNat_and]
  exact Nat.and_two_pow_sub_one_eq_mod w.toNat 4

theorem toNat_and_00FF (w : Word) : (w &&& 0x00FF#16).toNat = w.toNat % 256 := by
  rw [BitVec.toNat_and]
  exact Nat.and_two_pow_sub_one_eq_mod w.toNat 8

/-- Masking a word to its class digit and its digit `n`. -/
theorem toNat_and_F00F (w : Word) : (w &&& 0xF00F#16).toNat = 4096 * (w.toNat / 4096) + w.toNat % 16 := by
  rw [show (0xF00F#16 : Word) = 0xF000#16 ||| 0x000F#16 from rfl, and_or_mask, ← BitVec.add_eq_or_of_and_eq_zero,
    BitVec.toNat_add, toNat_and_000F, toNat_and_F000]
  · have := w.isLt
    omega
  · apply BitVec.eq_of_getLsbD_eq
    intro i hi
    interval_cases i <;> simp

/-- Masking a word to its class digit and its byte `nn`. -/
theorem toNat_and_F0FF (w : Word) : (w &&& 0xF0FF#16).toNat = 4096 * (w.toNat / 4096) + w.toNat % 256 := by
  rw [show (0xF0FF#16 : Word) = 0xF000#16 ||| 0x00FF#16 from rfl, and_or_mask, ← BitVec.add_eq_or_of_and_eq_zero,
    BitVec.toNat_add, toNat_and_00FF, toNat_and_F000]
  · have := w.isLt
    omega
  · apply BitVec.eq_of_getLsbD_eq
    intro i hi
    interval_cases i <;> simp

/-! ### The fields of an encoded word, form by form -/

theorem fields_wordNnn {base c : Nat} (hb : base = 4096 * c) (hc : c < 16) (nnn : BitVec 12) :
    classField (wordNnn base nnn) = c ∧ nnnField (wordNnn base nnn) = nnn := by
  have := nnn.isLt
  have e := toNat_wordNnn (base := base) (by omega) nnn
  exact ⟨by unfold classField; omega, nnnField_eq (by omega)⟩

theorem fields_wordXNn {base c : Nat} (hb : base = 4096 * c) (hc : c < 16) (x : Reg) (nn : Byte) :
    classField (wordXNn base x nn) = c ∧ xField (wordXNn base x nn) = x ∧ nnField (wordXNn base x nn) = nn := by
  have := nn.isLt
  have := x.isLt
  have e := toNat_wordXNn (base := base) (by omega) x nn
  exact ⟨by unfold classField; omega, xField_eq (by omega), nnField_eq (by omega)⟩

theorem fields_wordXY {base c : Nat} {n : Fin 16} (hb : base = 4096 * c + n.val) (hc : c < 16) (x y : Reg) :
    classField (wordXY base x y) = c ∧ xField (wordXY base x y) = x ∧ yField (wordXY base x y) = y ∧
      nField (wordXY base x y) = n := by
  have := n.isLt
  have := x.isLt
  have := y.isLt
  have e := toNat_wordXY (base := base) (by omega) x y
  exact ⟨by unfold classField; omega, xField_eq (by omega), yField_eq (by omega), nField_eq (by omega)⟩

theorem fields_wordX {base : Nat} {nn : Byte} (hb : base = 0xF000 + nn.toNat) (x : Reg) :
    classField (wordX base x) = 15 ∧ xField (wordX base x) = x ∧ nnField (wordX base x) = nn := by
  have := nn.isLt
  have := x.isLt
  have e := toNat_wordX (base := base) (by omega) x
  exact ⟨by unfold classField; omega, xField_eq (by omega), nnField_eq (by omega)⟩

/-! ### An encoded word under its row's mask -/

theorem wordNnn_selects {base : Nat} (hb : base % 4096 = 0) (h : base < 65536) (nnn : BitVec 12) :
    OpcodeRow.selects ⟨0xF000, BitVec.ofNat 16 base⟩ (wordNnn base nnn) = true := by
  have := nnn.isLt
  rw [OpcodeRow.selects, beq_iff_eq]
  apply BitVec.eq_of_toNat_eq
  refine (toNat_and_F000 _).trans ?_
  rw [toNat_wordNnn (by omega), BitVec.toNat_ofNat]
  omega

theorem wordXNn_selects {base : Nat} (hb : base % 4096 = 0) (h : base < 65536) (x : Reg) (nn : Byte) :
    OpcodeRow.selects ⟨0xF000, BitVec.ofNat 16 base⟩ (wordXNn base x nn) = true := by
  have := nn.isLt
  have := x.isLt
  rw [OpcodeRow.selects, beq_iff_eq]
  apply BitVec.eq_of_toNat_eq
  refine (toNat_and_F000 _).trans ?_
  rw [toNat_wordXNn (by omega), BitVec.toNat_ofNat]
  omega

theorem wordXY_selects {base : Nat} (hb : base % 4096 < 16) (h : base < 65536) (x y : Reg) :
    OpcodeRow.selects ⟨0xF00F, BitVec.ofNat 16 base⟩ (wordXY base x y) = true := by
  have := x.isLt
  have := y.isLt
  rw [OpcodeRow.selects, beq_iff_eq]
  apply BitVec.eq_of_toNat_eq
  refine (toNat_and_F00F _).trans ?_
  rw [toNat_wordXY (by omega), BitVec.toNat_ofNat]
  omega

theorem wordX_selects {base : Nat} (hb : base % 4096 < 256) (h : base < 65536) (x : Reg) :
    OpcodeRow.selects ⟨0xF0FF, BitVec.ofNat 16 base⟩ (wordX base x) = true := by
  have := x.isLt
  rw [OpcodeRow.selects, beq_iff_eq]
  apply BitVec.eq_of_toNat_eq
  refine (toNat_and_F0FF _).trans ?_
  rw [toNat_wordX (by omega), BitVec.toNat_ofNat]
  omega

end Sys2Proof
end

