-- ==== Sys2Proof/Laws/Memory.lean ====
section
/-! SUPPORT. Laws/Memory.lean: a read after a write, and that every memory operation keeps the canonical form. -/

namespace Sys2Proof.Machine

/-- A read after a write: the byte written at its address, every other byte as before, whatever the list. -/
theorem Memory.read_write_ne (m : Memory) {a b : Nat} (h : b ≠ a) (v : Byte) : (m.write a v).read b = m.read b := by
  induction m with
  | nil =>
    unfold Memory.write
    split
    · rfl
    · simp [Memory.read, Ne.symm h]
  | cons c rest ih =>
    obtain ⟨k, u⟩ := c
    unfold Memory.write
    split
    · split <;> simp [Memory.read, Ne.symm h]
    · split
      · subst_vars; split <;> simp [Memory.read, Ne.symm h]
      · simp only [Memory.read, ih]

/-- Below its first cell a canonical memory reads as unlisted. -/
theorem Memory.read_of_wfFrom (m : Memory) : ∀ {lo a : Nat}, Memory.wfFrom lo m = true → a < lo → m.read a = Memory.unlisted := by
  induction m with
  | nil => intros; rfl
  | cons c rest ih =>
    obtain ⟨k, u⟩ := c
    intro lo a h ha
    simp only [Memory.wfFrom, Bool.and_eq_true, decide_eq_true_eq] at h
    rw [Memory.read, if_neg (by omega)]
    exact ih h.2 (by omega)

/-- Weakening the lower bound of the canonical form. -/
theorem Memory.wfFrom_mono (m : Memory) {lo lo' : Nat} (h : Memory.wfFrom lo m = true) (hl : lo' ≤ lo) :
    Memory.wfFrom lo' m = true := by
  cases m with
  | nil => rfl
  | cons c rest =>
    simp only [Memory.wfFrom, Bool.and_eq_true, decide_eq_true_eq] at h ⊢
    exact ⟨⟨⟨by omega, h.1.1.2⟩, h.1.2⟩, h.2⟩

/-- A read of the address just written, in a canonical memory. -/
theorem Memory.read_write_same (m : Memory) : ∀ {lo : Nat}, Memory.wfFrom lo m = true → ∀ (a : Nat) (v : Byte),
    (m.write a v).read a = v := by
  induction m with
  | nil =>
    intro lo _ a v
    unfold Memory.write
    split
    · simp_all [Memory.read]
    · simp [Memory.read]
  | cons c rest ih =>
    obtain ⟨k, u⟩ := c
    intro lo h a v
    have h' := h
    simp only [Memory.wfFrom, Bool.and_eq_true, decide_eq_true_eq] at h'
    unfold Memory.write
    split
    · next hlt =>
      split
      · next hv =>
        rw [hv]
        exact Memory.read_of_wfFrom _ (Memory.wfFrom_mono (lo := k) (lo' := k) _ (by simp [Memory.wfFrom, h'] ) (le_refl _)) hlt
      · simp [Memory.read]
    · split
      · next _ heq =>
        subst heq
        split
        · next hv => rw [hv]; exact Memory.read_of_wfFrom rest h'.2 (by omega)
        · simp [Memory.read]
      · next _ hne =>
        rw [Memory.read, if_neg (fun e => hne e.symm)]
        exact ih h'.2 a v

/-- A write inside memory keeps the canonical form. -/
theorem Memory.wfFrom_write (m : Memory) : ∀ {lo a : Nat} (v : Byte), Memory.wfFrom lo m = true → lo ≤ a →
    a < Config.memSize → Memory.wfFrom lo (m.write a v) = true := by
  induction m with
  | nil =>
    intro lo a v _ hlo ha
    unfold Memory.write
    split <;> simp_all [Memory.wfFrom]
  | cons c rest ih =>
    obtain ⟨k, u⟩ := c
    intro lo a v h hlo ha
    have h' := h
    simp only [Memory.wfFrom, Bool.and_eq_true, decide_eq_true_eq] at h'
    unfold Memory.write
    split
    · split
      · exact h
      · next hv =>
        simp only [Memory.wfFrom, Bool.and_eq_true, decide_eq_true_eq]
        exact ⟨⟨⟨hlo, ha⟩, hv⟩, ⟨⟨by omega, h'.1.1.2⟩, h'.1.2⟩, h'.2⟩
    · split
      · next _ heq =>
        subst heq
        split
        · exact Memory.wfFrom_mono rest h'.2 (by omega)
        · next hv =>
          simp only [Memory.wfFrom, Bool.and_eq_true, decide_eq_true_eq]
          exact ⟨⟨⟨hlo, ha⟩, hv⟩, h'.2⟩
      · simp only [Memory.wfFrom, Bool.and_eq_true, decide_eq_true_eq]
        exact ⟨⟨⟨h'.1.1.1, h'.1.1.2⟩, h'.1.2⟩, ih v h'.2 (by omega) ha⟩

/-- Every write inside memory keeps the canonical form. -/
theorem Memory.wf_write {m : Memory} (h : m.wf = true) {a : Nat} (ha : a < Config.memSize) (v : Byte) :
    (m.write a v).wf = true := Memory.wfFrom_write m v h (Nat.zero_le a) ha

/-- Reset memory is canonical. -/
theorem State.reset_mem_wf : State.reset.mem.wf = true := rfl

/-- `MemWrite` keeps the canonical form, whatever the address. -/
theorem State.memWrite_wf {s : State} (h : s.mem.wf = true) (a : Nat) (v : Byte) : (s.memWrite a v).mem.wf = true := by
  rw [State.memWrite_mem]
  split
  · next ha => exact Memory.wf_write h ha v
  · exact h

/-- Writing a list of bytes keeps the canonical form. -/
theorem State.memWriteList_wf (l : List Byte) : ∀ {s : State}, s.mem.wf = true → ∀ a, (s.memWriteList a l).mem.wf = true := by
  induction l with
  | nil => intro s h a; exact h
  | cons b rest ih => intro s h a; exact ih (State.memWrite_wf h a b) (a + 1)

/-- `MemWrite` leaves every other byte alone, in any memory. -/
theorem State.memRead_memWrite_ne (s : State) {a b : Nat} (h : b ≠ a) (v : Byte) : (s.memWrite a v).memRead b = s.memRead b := by
  unfold State.memRead
  rw [State.memWrite_mem]
  split
  · exact Memory.read_write_ne _ h v
  · rfl

/-- `MemRead` after `MemWrite` of the same address gives the byte written (rule R85). -/
theorem State.memRead_memWrite_same {s : State} (h : s.mem.wf = true) {a : Nat} (ha : a < Config.memSize) (v : Byte) :
    (s.memWrite a v).memRead a = v := by
  unfold State.memRead
  rw [State.memWrite_mem, if_pos ha]
  exact Memory.read_write_same _ h a v

/-- Writing a list of bytes leaves every byte outside it alone. -/
theorem State.memRead_memWriteList_outside (l : List Byte) : ∀ (s : State) (a : Nat) {b : Nat}, b < a ∨ a + l.length ≤ b →
    (s.memWriteList a l).memRead b = s.memRead b := by
  induction l with
  | nil => intros; rfl
  | cons c rest ih =>
    intro s a b h
    simp only [List.length_cons] at h
    rw [State.memWriteList, ih _ _ (by omega), State.memRead_memWrite_ne _ (by omega)]

/-- Reading back a list of bytes just written. -/
theorem State.memRead_memWriteList_inside (l : List Byte) : ∀ {s : State}, s.mem.wf = true → ∀ (a k : Nat) (hk : k < l.length),
    a + l.length ≤ Config.memSize → (s.memWriteList a l).memRead (a + k) = l[k] := by
  induction l with
  | nil => intro s _ a k hk; simp at hk
  | cons c rest ih =>
    intro s h a k hk ha
    simp only [List.length_cons] at hk ha
    rw [State.memWriteList]
    cases k with
    | zero =>
      rw [State.memRead_memWriteList_outside rest _ _ (by omega)]
      exact State.memRead_memWrite_same h (by omega) c
    | succ k =>
      have := ih (State.memWrite_wf h a c) (a + 1) k (by omega) (by omega)
      rw [show a + (k + 1) = a + 1 + k by omega, this]
      rfl

/-- Every byte after a list of bytes has been written inside memory: the list's where it reaches, the old one
elsewhere. -/
theorem State.memRead_memWriteList {s : State} (h : s.mem.wf = true) (l : List Byte) {a : Nat} (ha : a + l.length ≤ Config.memSize)
    (b : Nat) : (s.memWriteList a l).memRead b = if a ≤ b then l.getD (b - a) (s.memRead b) else s.memRead b := by
  by_cases hb : a ≤ b ∧ b < a + l.length
  · have := State.memRead_memWriteList_inside l h a (b - a) (by omega) ha
    rw [show a + (b - a) = b by omega] at this
    rw [if_pos hb.1, this, List.getD_eq_getElem _ _ (by omega)]
  · rw [State.memRead_memWriteList_outside l s a (by omega)]
    split
    · rw [List.getD_eq_default _ _ (by omega)]
    · rfl

end Sys2Proof.Machine
end

