-- ==== Sys2Proof/Laws/Ops.lean ====
section
/-! SUPPORT. Laws/Ops.lean: for each shared operation, one lemma that says what it can do, to be cited instead of
unfolding it. -/

namespace Sys2Proof.Machine

/-! ### The bounds check -/

/-- The bounds check passes exactly when the block is empty or lies in memory (rule R86). -/
theorem State.outOfBounds_none_iff (s : State) (k : Nat) : s.outOfBounds k = none ↔ k = 0 ∨ s.i.toNat + k ≤ 4096 := by
  unfold State.outOfBounds Config.memSize
  split <;> simp <;> omega

/-- A block in memory, or an empty one: the action runs. -/
theorem State.withBlock_of_inside (s : State) {k : Nat} (h : k = 0 ∨ s.i.toNat + k ≤ 4096) (act : State → State) :
    s.withBlock k act = act s := by
  unfold State.withBlock
  rw [(s.outOfBounds_none_iff k).2 h]

/-- A block that is not wholly in memory: `MemOutOfBounds(max(I, 4096))` is raised and nothing else happens. -/
theorem State.withBlock_of_outside (s : State) {k : Nat} (hk : 1 ≤ k) (h : 4096 < s.i.toNat + k) (act : State → State) :
    s.withBlock k act = s.raise (.memOutOfBounds (BitVec.ofNat 16 (max s.i.toNat 4096))) := by
  unfold State.withBlock State.outOfBounds Config.memSize
  rw [if_pos (by omega)]

/-- Everything a checked block access can do. -/
theorem State.withBlock_cases (s : State) (k : Nat) (act : State → State) :
    ((k = 0 ∨ s.i.toNat + k ≤ 4096) ∧ s.withBlock k act = act s) ∨
    (1 ≤ k ∧ 4096 < s.i.toNat + k ∧
      s.withBlock k act = s.raise (.memOutOfBounds (BitVec.ofNat 16 (max s.i.toNat 4096)))) := by
  by_cases h : k = 0 ∨ s.i.toNat + k ≤ 4096
  · exact .inl ⟨h, s.withBlock_of_inside h act⟩
  · exact .inr ⟨by omega, by omega, s.withBlock_of_outside (by omega) (by omega) act⟩

/-! ### The fetch -/

/-- A fetch inside memory reads the word and advances `pc`. -/
theorem State.fetch_of_le (s : State) (h : s.pc.toNat ≤ 4094) :
    s.fetch = .ok (s.wordAt s.pc.toNat, s.setPc (s.pc + 2)) := by
  unfold State.fetch
  rw [if_neg (by omega), if_neg (by omega)]

/-- A fetch at 4095 or above raises `PcOutOfBounds(pc)`. -/
theorem State.fetch_of_ge (s : State) (h : 4095 ≤ s.pc.toNat) : s.fetch = .error (.pcOutOfBounds s.pc) := by
  unfold State.fetch
  split
  · rfl
  · rw [if_pos (by omega)]

/-! ### Register blocks -/

/-- The block of `Fx55` and `Fx65` is the registers up to `x`. -/
theorem blockRegs_length (x : Reg) : (blockRegs x).length = x.val + 1 := by
  have := x.isLt
  simp only [blockRegs, List.length_take, List.length_finRange]
  omega

theorem blockRegs_getElem (x : Reg) (k : Nat) (h : k < (blockRegs x).length) :
    (blockRegs x)[k] = ⟨k, by have := blockRegs_length x; have := x.isLt; omega⟩ := by
  simp [blockRegs]

theorem mem_blockRegs (x r : Reg) : r ∈ blockRegs x ↔ r ≤ x := by
  rw [List.mem_iff_getElem]
  constructor
  · rintro ⟨k, hk, rfl⟩
    rw [blockRegs_getElem, Fin.le_def]
    have := blockRegs_length x
    show k ≤ x.val
    omega
  · intro h
    have hl : r.val < (blockRegs x).length := by rw [blockRegs_length]; rw [Fin.le_def] at h; omega
    exact ⟨r.val, hl, by rw [blockRegs_getElem]⟩

/-- Storing a register block: `V[r]` lies at `a + r` for every `r` up to `x`. -/
theorem State.memRead_storedBlock {s : State} (h : s.mem.wf = true) (a : Nat) (x r : Reg) (hr : r ≤ x)
    (ha : a + (x.val + 1) ≤ 4096) :
    (s.memWriteList a ((blockRegs x).map s.getV)).memRead (a + r.val) = s.getV r := by
  rw [Fin.le_def] at hr
  have hl := blockRegs_length x
  rw [State.memRead_memWriteList_inside _ h a r.val (by simp [hl]; omega) (by simp [hl, Config.memSize]; omega)]
  simp [blockRegs_getElem]

/-- Loading registers writes those of the list, each from the byte at `I` plus its number, and no other. -/
theorem State.getV_loadRegs (l : List Reg) : ∀ (s : State) (r : Reg),
    (s.loadRegs l).getV r = if r ∈ l then s.memRead (s.i.toNat + r.val) else s.getV r := by
  induction l with
  | nil => intro s r; simp [State.loadRegs]
  | cons c rest ih =>
    intro s r
    rw [State.loadRegs, ih]
    by_cases h : r ∈ rest
    · simp [h]
    · by_cases hc : r = c
      · subst hc; simp [h]
      · simp [h, hc, State.getV_setV]

theorem State.loadRegs_eq (l : List Reg) : ∀ s : State, s.loadRegs l = { s with v := (s.loadRegs l).v } := by
  induction l with
  | nil => intro s; rfl
  | cons c rest ih => intro s; rw [State.loadRegs, ih]; rfl

@[simp] theorem State.loadRegs_pc (s : State) (l : List Reg) : (s.loadRegs l).pc = s.pc := by rw [State.loadRegs_eq]
@[simp] theorem State.loadRegs_i (s : State) (l : List Reg) : (s.loadRegs l).i = s.i := by rw [State.loadRegs_eq]
@[simp] theorem State.loadRegs_stack (s : State) (l : List Reg) : (s.loadRegs l).stack = s.stack := by rw [State.loadRegs_eq]
@[simp] theorem State.loadRegs_dt (s : State) (l : List Reg) : (s.loadRegs l).dt = s.dt := by rw [State.loadRegs_eq]
@[simp] theorem State.loadRegs_st (s : State) (l : List Reg) : (s.loadRegs l).st = s.st := by rw [State.loadRegs_eq]
@[simp] theorem State.loadRegs_mem (s : State) (l : List Reg) : (s.loadRegs l).mem = s.mem := by rw [State.loadRegs_eq]
@[simp] theorem State.loadRegs_fb (s : State) (l : List Reg) : (s.loadRegs l).fb = s.fb := by rw [State.loadRegs_eq]
@[simp] theorem State.loadRegs_key (s : State) (l : List Reg) : (s.loadRegs l).key = s.key := by rw [State.loadRegs_eq]
@[simp] theorem State.loadRegs_fault (s : State) (l : List Reg) : (s.loadRegs l).fault = s.fault := by rw [State.loadRegs_eq]
@[simp] theorem State.loadRegs_params (s : State) (l : List Reg) : (s.loadRegs l).params = s.params := by rw [State.loadRegs_eq]
@[simp] theorem State.loadRegs_draws (s : State) (l : List Reg) : (s.loadRegs l).draws = s.draws := by rw [State.loadRegs_eq]

@[simp] theorem State.memRead_loadRegs (s : State) (l : List Reg) (a : Nat) : (s.loadRegs l).memRead a = s.memRead a := by
  rw [State.loadRegs_eq]; rfl

/-! ### Skips, the stack and the two-write instructions -/

/-- A skip moves `pc` and nothing else. -/
theorem State.skipIf_eq (s : State) (c : Bool) : s.skipIf c = s.setPc (if c then s.pc + 2 else s.pc) := by
  cases c <;> rfl

/-- The stack is full exactly when `STACK_DEPTH` is the number of its entries. -/
theorem State.stackFull_iff (s : State) : s.stackFull = true ↔ s.params.stackDepth = some s.stack.length := by
  unfold State.stackFull
  cases s.params.stackDepth with
  | none => simp
  | some d => simp [eq_comm]

/-- The flag write and the subtraction after it change the registers `x` and `VF` and nothing else. -/
theorem State.subtractAfterFlag_eq (s : State) (f : Byte) (x a b : Reg) :
    s.subtractAfterFlag f x a b = { s with v := (s.subtractAfterFlag f x a b).v } := rfl

/-- Every register after the flag write and the subtraction. -/
theorem State.getV_subtractAfterFlag (s : State) (f : Byte) (x a b r : Reg) :
    (s.subtractAfterFlag f x a b).getV r =
      if r = x then sub8 (if a = VF then f else s.getV a) (if b = VF then f else s.getV b)
      else if r = VF then f else s.getV r := by
  simp only [State.subtractAfterFlag, State.getV_setV]

/-- The value a shift works on: the old `V[y]` under `vy`, the old `V[x]` under `vx` (rules R169 and R171). -/
theorem State.getV_shiftSource (s : State) (x y : Reg) :
    (s.shiftSource x y).getV x = if s.params.shiftSrc = .vy then s.getV y else s.getV x := by
  unfold State.shiftSource
  cases s.params.shiftSrc <;> simp

/-- A whole shift changes registers and nothing else. -/
theorem State.shift_eq (s : State) (x y : Reg) (flag shift : Byte → Byte) :
    (s.shiftSource x y).shiftAfterFlag x flag shift
      = { s with v := ((s.shiftSource x y).shiftAfterFlag x flag shift).v } := by
  unfold State.shiftAfterFlag State.shiftSource
  cases s.params.shiftSrc <;> rfl

/-- Every register after a whole shift of the value `src`. -/
theorem State.getV_shift (s : State) (x y r : Reg) (flag shift : Byte → Byte) {src : Byte}
    (hs : src = (s.shiftSource x y).getV x) :
    ((s.shiftSource x y).shiftAfterFlag x flag shift).getV r =
      if r = x then shift (if x = VF then flag src else src) else if r = VF then flag src else s.getV r := by
  subst hs
  simp only [State.shiftAfterFlag, State.getV_setV]
  by_cases hx : r = x
  · simp [hx]
  · by_cases hv : r = VF
    · simp [hv]
    · simp only [if_neg hx, if_neg hv]
      unfold State.shiftSource
      cases s.params.shiftSrc <;> simp [State.getV_setV, hx]

/-! ### The framebuffer -/

@[simp] theorem Frame.pixel_clear (r : Fin 32) (c : Fin 64) : Frame.pixel (Vector.replicate 32 0) r c = false := by
  simp [Frame.pixel, BitVec.getMsbD]

/-- Toggling one pixel changes that pixel and no other. -/
theorem Frame.pixel_toggle (f : Frame) (r r' : Fin 32) (c c' : Fin 64) :
    (f.toggle r c).pixel r' c' = (f.pixel r' c' ^^ decide (r' = r ∧ c' = c)) := by
  unfold Frame.pixel Frame.toggle
  simp only [Fin.getElem_fin, Vector.getElem_set]
  by_cases hr : r' = r
  · subst hr
    have h1 := c.isLt
    have h2 := c'.isLt
    have e : (63 - c.val = 63 - c'.val) ↔ c' = c := by rw [Fin.ext_iff]; omega
    simp [BitVec.getMsbD, BitVec.getLsbD_twoPow, h2, e]
    intro _
    omega
  · have : ¬ (r.val = r'.val) := fun e => hr (Fin.ext e.symm)
    simp [hr, this]

/-- The rows and columns a raw position is placed on (rule R211). -/
theorem place_eq_some_iff (edge : DrawEdge) (px py : Nat) (r : Fin 32) (c : Fin 64) :
    place edge px py = some (r, c) ↔
      match edge with
      | .wrap => py % 32 = r.val ∧ px % 64 = c.val
      | .clip => py = r.val ∧ px = c.val := by
  have h1 := r.isLt
  have h2 := c.isLt
  cases edge with
  | wrap => simp [place, Fin.ext_iff]
  | clip =>
    simp only [place]
    split
    · simp; omega
    · next h =>
      simp only [Option.some.injEq, Prod.mk.injEq, Fin.ext_iff, Fin.val_ofNat]
      rw [Nat.mod_eq_of_lt (by omega), Nat.mod_eq_of_lt (by omega)]

end Sys2Proof.Machine
end

