-- ==== Sys2Proof/Laws/Display.lean ====
section
/-! SUPPORT. Laws/Display.lean: what the loops of `Dxyn` compute. The frame after is the frame before xor the pixels
visited so far, and `hit` says whether one of them was lit before; no pixel is visited twice. -/

namespace Sys2Proof.Machine

/-- What the loops of `Dxyn` have established when the pixels of `seen` have been visited: `f` is the frame before. -/
def DrawnSoFar (f : Frame) (seen : Fin 32 → Fin 64 → Bool) (acc : Frame × Bool) : Prop :=
  (∀ r c, acc.1.pixel r c = (f.pixel r c ^^ seen r c)) ∧ (acc.2 = true ↔ ∃ r c, f.pixel r c = true ∧ seen r c = true)

theorem placesOn_iff (edge : DrawEdge) (px py : Nat) (r : Fin 32) (c : Fin 64) :
    placesOn edge px py r c = true ↔ place edge px py = some (r, c) := by
  rw [place_eq_some_iff]
  cases edge <;> simp [placesOn]

/-- Two sprite positions placed on the same pixel are the same position: a sprite is smaller than the screen (rule
R213 (a)). -/
theorem placesOn_inj {edge : DrawEdge} {x0 y0 j j' k k' : Nat} {r : Fin 32} {c : Fin 64} (hj : j < 8) (hj' : j' < 8)
    (hk : k < 16) (hk' : k' < 16) (h : placesOn edge (x0 + j) (y0 + k) r c = true)
    (h' : placesOn edge (x0 + j') (y0 + k') r c = true) : j = j' ∧ k = k' := by
  cases edge <;> simp only [placesOn, Bool.and_eq_true, decide_eq_true_eq] at h h' <;> omega

/-- One sprite pixel, on a pixel not visited before. -/
theorem drawPixel_spec {f : Frame} {seen : Fin 32 → Fin 64 → Bool} {acc : Frame × Bool} (h : DrawnSoFar f seen acc)
    (edge : DrawEdge) (b : Byte) (j px py : Nat) (fresh : ∀ r c, placesOn edge px py r c = true → seen r c = false) :
    DrawnSoFar f (fun r c => seen r c || (b.getLsbD (7 - j) && placesOn edge px py r c)) (drawPixel edge b j px py acc) := by
  unfold drawPixel
  by_cases hb : b.getLsbD (7 - j) = true
  · simp only [hb, if_true, Bool.true_and]
    cases hp : place edge px py with
    | none =>
      have hn : ∀ r c, placesOn edge px py r c = false := fun r c => by
        rw [← Bool.not_eq_true, placesOn_iff, hp]; simp
      simpa [hn] using h
    | some p =>
      obtain ⟨row, col⟩ := p
      have hs : seen row col = false := fresh row col (by rw [placesOn_iff, hp])
      have ho : ∀ r c, placesOn edge px py r c = decide (r = row ∧ c = col) := fun r c => by
        rw [Bool.eq_iff_iff, placesOn_iff, hp]
        simp only [Option.some.injEq, Prod.mk.injEq, decide_eq_true_eq]
        constructor <;> rintro ⟨rfl, rfl⟩ <;> exact ⟨rfl, rfl⟩
      refine ⟨fun r c => ?_, ?_⟩
      · simp only [Frame.pixel_toggle, h.1, ho]
        by_cases e : r = row ∧ c = col
        · obtain ⟨rfl, rfl⟩ := e; simp [hs]
        · simp [e]
      · simp only [Bool.or_eq_true, h.2, h.1, ho, decide_eq_true_eq]
        constructor
        · rintro (⟨r, c, h1, h2⟩ | h1)
          · exact ⟨r, c, h1, .inl h2⟩
          · exact ⟨row, col, by simpa [hs] using h1, .inr ⟨rfl, rfl⟩⟩
        · rintro ⟨r, c, h1, h2 | ⟨rfl, rfl⟩⟩
          · exact .inl ⟨r, c, h1, h2⟩
          · exact .inr (by simpa [hs] using h1)
  · simp only [Bool.not_eq_true] at hb
    simpa [hb] using h

/-- The pixels of sprite row `k` in columns below `j`. -/
def rowCovers (edge : DrawEdge) (b : Byte) (x0 py j : Nat) (r : Fin 32) (c : Fin 64) : Bool :=
  (List.range j).any (fun j => b.getLsbD (7 - j) && placesOn edge (x0 + j) py r c)

/-- The pixels of the first `n` sprite rows. -/
def rowsCover (edge : DrawEdge) (row : Nat → Byte) (n x0 y0 : Nat) (r : Fin 32) (c : Fin 64) : Bool :=
  (List.range n).any (fun k => rowCovers edge (row k) x0 (y0 + k) 8 r c)

theorem drawRow_prefix {f : Frame} {seen : Fin 32 → Fin 64 → Bool} {acc : Frame × Bool} (h : DrawnSoFar f seen acc)
    (edge : DrawEdge) (b : Byte) (x0 y0 k : Nat) (hk : k < 16)
    (fresh : ∀ j < 8, ∀ r c, placesOn edge (x0 + j) (y0 + k) r c = true → seen r c = false) (j : Nat) (hj : j ≤ 8) :
    DrawnSoFar f (fun r c => seen r c || rowCovers edge b x0 (y0 + k) j r c)
      ((List.range j).foldl (fun acc c => drawPixel edge b c (x0 + c) (y0 + k) acc) acc) := by
  induction j with
  | zero => simpa [rowCovers] using h
  | succ j ih =>
    rw [List.range_succ, List.foldl_append]
    have := drawPixel_spec (ih (by omega)) edge b j (x0 + j) (y0 + k) (fun r c hp => by
      rw [fresh j (by omega) r c hp, Bool.false_or, rowCovers, List.any_eq_false]
      intro j' hj' hcon
      rw [List.mem_range] at hj'
      rw [Bool.and_eq_true] at hcon
      have := placesOn_inj (by omega) (by omega) hk hk hp hcon.2
      omega)
    simpa [rowCovers, List.range_succ, Bool.or_assoc] using this

/-- The loops of rule R212: the frame after is the frame before xor the sprite, and `hit` is the overlap (rule R213
(b)). -/
theorem drawSprite_spec (edge : DrawEdge) (row : Nat → Byte) (n x0 y0 : Nat) (hn : n ≤ 15) (f : Frame) :
    DrawnSoFar f (rowsCover edge row n x0 y0) (drawSprite edge row n x0 y0 f) := by
  unfold drawSprite
  induction n with
  | zero => exact ⟨fun r c => by simp [rowsCover], by simp [rowsCover]⟩
  | succ n ih =>
    rw [List.range_succ, List.foldl_append]
    have := drawRow_prefix (ih (by omega)) edge (row n) x0 y0 n (by omega) (fun j hj r c hp => by
      rw [rowsCover, List.any_eq_false]
      intro k hk hcon
      rw [List.mem_range] at hk
      rw [rowCovers, List.any_eq_true] at hcon
      obtain ⟨j', hj', hcon⟩ := hcon
      rw [List.mem_range] at hj'
      rw [Bool.and_eq_true] at hcon
      have := placesOn_inj hj hj' (by omega) (by omega) hp hcon.2
      omega) 8 (le_refl 8)
    have e : (fun r c => rowsCover edge row n x0 y0 r c || rowCovers edge (row n) x0 (y0 + n) 8 r c)
        = rowsCover edge row (n + 1) x0 y0 := by
      funext r c
      simp [rowsCover, List.range_succ]
    rw [← e]
    exact this

end Sys2Proof.Machine
end

