-- ==== Sys2Proof/Laws/PerInstr.lean ====
section
/-! SUPPORT. Laws/PerInstr.lean: statements made for each instruction as syntax, one lemma per constructor. -/

namespace Sys2Proof.Laws.OpcodeRow

/-- The number of an instruction's row in the opcode map (spec/30_encoding.md rule R115, counted from 0). -/
def rowNumber : Instr → Nat
  | .cls => 0
  | .ret => 1
  | .jp _ => 2
  | .call _ => 3
  | .seVxNn _ _ => 4
  | .sneVxNn _ _ => 5
  | .seVxVy _ _ => 6
  | .ldVxNn _ _ => 7
  | .addVxNn _ _ => 8
  | .ldVxVy _ _ => 9
  | .or _ _ => 10
  | .and _ _ => 11
  | .xor _ _ => 12
  | .addVxVy _ _ => 13
  | .sub _ _ => 14
  | .shr _ _ => 15
  | .subn _ _ => 16
  | .shl _ _ => 17
  | .sneVxVy _ _ => 18
  | .ldINnn _ => 19
  | .jpV0 _ => 20
  | .rnd _ _ => 21
  | .drw _ _ _ => 22
  | .ldVxDt _ => 23
  | .ldVxK _ => 24
  | .ldDtVx _ => 25
  | .ldStVx _ => 26
  | .addIVx _ => 27
  | .ldFVx _ => 28
  | .ldBVx _ => 29
  | .ldMemVx _ => 30
  | .ldVxMem _ => 31

/-- The word of an instruction is selected by the instruction's own row of the opcode map. -/
def Statement (i : Instr) : Prop := ∃ r, opcodeMap[rowNumber i]? = some r ∧ r.selects (encode i) = true

theorem cls : Statement .cls := ⟨_, rfl, by decide⟩
theorem ret : Statement .ret := ⟨_, rfl, by decide⟩
theorem jp (nnn : BitVec 12) : Statement (.jp nnn) := ⟨_, rfl, wordNnn_selects (base := 0x1000) rfl (by decide) nnn⟩
theorem call (nnn : BitVec 12) : Statement (.call nnn) := ⟨_, rfl, wordNnn_selects (base := 0x2000) rfl (by decide) nnn⟩
theorem seVxNn (x : Reg) (nn : Byte) : Statement (.seVxNn x nn) := ⟨_, rfl, wordXNn_selects (base := 0x3000) rfl (by decide) x nn⟩
theorem sneVxNn (x : Reg) (nn : Byte) : Statement (.sneVxNn x nn) := ⟨_, rfl, wordXNn_selects (base := 0x4000) rfl (by decide) x nn⟩
theorem seVxVy (x y : Reg) : Statement (.seVxVy x y) := ⟨_, rfl, wordXY_selects (base := 0x5000) (by decide) (by decide) x y⟩
theorem ldVxNn (x : Reg) (nn : Byte) : Statement (.ldVxNn x nn) := ⟨_, rfl, wordXNn_selects (base := 0x6000) rfl (by decide) x nn⟩
theorem addVxNn (x : Reg) (nn : Byte) : Statement (.addVxNn x nn) := ⟨_, rfl, wordXNn_selects (base := 0x7000) rfl (by decide) x nn⟩
theorem ldVxVy (x y : Reg) : Statement (.ldVxVy x y) := ⟨_, rfl, wordXY_selects (base := 0x8000) (by decide) (by decide) x y⟩
theorem or (x y : Reg) : Statement (.or x y) := ⟨_, rfl, wordXY_selects (base := 0x8001) (by decide) (by decide) x y⟩
theorem and (x y : Reg) : Statement (.and x y) := ⟨_, rfl, wordXY_selects (base := 0x8002) (by decide) (by decide) x y⟩
theorem xor (x y : Reg) : Statement (.xor x y) := ⟨_, rfl, wordXY_selects (base := 0x8003) (by decide) (by decide) x y⟩
theorem addVxVy (x y : Reg) : Statement (.addVxVy x y) := ⟨_, rfl, wordXY_selects (base := 0x8004) (by decide) (by decide) x y⟩
theorem sub (x y : Reg) : Statement (.sub x y) := ⟨_, rfl, wordXY_selects (base := 0x8005) (by decide) (by decide) x y⟩
theorem shr (x y : Reg) : Statement (.shr x y) := ⟨_, rfl, wordXY_selects (base := 0x8006) (by decide) (by decide) x y⟩
theorem subn (x y : Reg) : Statement (.subn x y) := ⟨_, rfl, wordXY_selects (base := 0x8007) (by decide) (by decide) x y⟩
theorem shl (x y : Reg) : Statement (.shl x y) := ⟨_, rfl, wordXY_selects (base := 0x800E) (by decide) (by decide) x y⟩
theorem sneVxVy (x y : Reg) : Statement (.sneVxVy x y) := ⟨_, rfl, wordXY_selects (base := 0x9000) (by decide) (by decide) x y⟩
theorem ldINnn (nnn : BitVec 12) : Statement (.ldINnn nnn) := ⟨_, rfl, wordNnn_selects (base := 0xA000) rfl (by decide) nnn⟩
theorem jpV0 (nnn : BitVec 12) : Statement (.jpV0 nnn) := ⟨_, rfl, wordNnn_selects (base := 0xB000) rfl (by decide) nnn⟩
theorem rnd (x : Reg) (nn : Byte) : Statement (.rnd x nn) := ⟨_, rfl, wordXNn_selects (base := 0xC000) rfl (by decide) x nn⟩
theorem drw (x y : Reg) (n : Fin 16) : Statement (.drw x y n) := by
  refine ⟨_, rfl, ?_⟩
  have := x.isLt
  have := y.isLt
  have := n.isLt
  rw [OpcodeRow.selects, beq_iff_eq]
  apply BitVec.eq_of_toNat_eq
  refine (toNat_and_F000 _).trans ?_
  show _ = 0xD000
  simp only [encode, BitVec.toNat_ofNat]
  omega
theorem ldVxDt (x : Reg) : Statement (.ldVxDt x) := ⟨_, rfl, wordX_selects (base := 0xF007) (by decide) (by decide) x⟩
theorem ldVxK (x : Reg) : Statement (.ldVxK x) := ⟨_, rfl, wordX_selects (base := 0xF00A) (by decide) (by decide) x⟩
theorem ldDtVx (x : Reg) : Statement (.ldDtVx x) := ⟨_, rfl, wordX_selects (base := 0xF015) (by decide) (by decide) x⟩
theorem ldStVx (x : Reg) : Statement (.ldStVx x) := ⟨_, rfl, wordX_selects (base := 0xF018) (by decide) (by decide) x⟩
theorem addIVx (x : Reg) : Statement (.addIVx x) := ⟨_, rfl, wordX_selects (base := 0xF01E) (by decide) (by decide) x⟩
theorem ldFVx (x : Reg) : Statement (.ldFVx x) := ⟨_, rfl, wordX_selects (base := 0xF029) (by decide) (by decide) x⟩
theorem ldBVx (x : Reg) : Statement (.ldBVx x) := ⟨_, rfl, wordX_selects (base := 0xF033) (by decide) (by decide) x⟩
theorem ldMemVx (x : Reg) : Statement (.ldMemVx x) := ⟨_, rfl, wordX_selects (base := 0xF055) (by decide) (by decide) x⟩
theorem ldVxMem (x : Reg) : Statement (.ldVxMem x) := ⟨_, rfl, wordX_selects (base := 0xF065) (by decide) (by decide) x⟩

end Sys2Proof.Laws.OpcodeRow
end

