-- ==== Sys2Proof/Tests/Slice0.lean ====
section
/-! SUPPORT. Tests/Slice0.lean: the model against the vectors of spec/95_test_vectors.md (T<n>, P<n>, S<n> name
them there), the smoke test of the well-formedness checks, and for every obligation with hypotheses a witness that
meets them all together. -/

open Sys2Proof Sys2Proof.Machine

namespace Sys2Proof.Tests

/-! ### Helpers: a start state as section "Conventions" of the vectors describes it -/

/-- The reset state with `pc` at `a` and the word `w` stored there. -/
def start (a : Word) (w : Nat) : State := (State.reset.setPc a).withFetchWord 16 w

/-- The state with these registers set. -/
def regs (l : List (Reg × Byte)) (s : State) : State := l.foldl (fun s p => s.setV p.1 p.2) s

/-- The state with these bytes in memory from `a` on. -/
def bytes (a : Nat) (l : List Byte) (s : State) : State := s.memWriteList a l

/-- The state with these pixels lit. -/
def lit (l : List (Fin 32 × Fin 64)) (s : State) : State :=
  s.setFb (l.foldl (fun f p => f.toggle p.1 p.2) (Vector.replicate 32 0))

/-- The state under `SHIFT_SRC = vx`. -/
def underVx (s : State) : State := { s with params := { s.params with shiftSrc := .vx } }

/-- The state under `DRAW_EDGE = clip`. -/
def underClip (s : State) : State := { s with params := { s.params with drawEdge := .clip } }

/-- The state under a finite `STACK_DEPTH`. -/
def underDepth (d : Nat) (s : State) : State := { s with params := { s.params with stackDepth := some d } }

/-- The state after one step, `none` if the step stops. -/
def after (s : State) : Option State :=
  match step s with
  | .next t => some t
  | .fault _ => none
  | .refused _ => none

/-- What one step leaves in `pc` and two registers. -/
def pcAnd (x y : Reg) (s : State) : Option (Word × Byte × Byte) := (after s).map (fun t => (t.pc, t.getV x, t.getV y))

/-- What one step leaves in `pc` and the fault latch. -/
def pcAndFault (s : State) : Option (Word × Option FaultRecord) := (after s).map (fun t => (t.pc, t.fault))

/-! ### Well-formedness: each check accepts what it should and refuses a term that fails it -/

theorem test_wellFormed_params_accepts : Params.default.wellFormed = true := by decide

theorem test_wellFormed_params_refuses_depth_zero :
    ({ shiftSrc := .vy, drawEdge := .wrap, stackDepth := some 0 } : Params).wellFormed = false := by decide

/-- Rule R303: 4096 bytes are accepted, 4097 are not. -/
theorem test_wellFormed_image : imageWellFormed (List.replicate 4096 0) = true ∧ imageWellFormed (List.replicate 4097 0) = false := by
  constructor <;> rw [imageWellFormed, List.length_replicate] <;> decide

/-- S11: 3584 bytes are accepted, 3585 are not. -/
theorem test_wellFormed_program :
    programWellFormed (List.replicate 3584 0) = true ∧ programWellFormed (List.replicate 3585 0) = false := by
  constructor <;> rw [programWellFormed, List.length_replicate] <;> decide

theorem test_wellFormed_instruction : (Instr.drw 15 15 15).wellFormed = true := by decide

/-- A memory whose addresses fall, one that lists a zero, and one with a cell outside are not canonical. -/
theorem test_wellFormed_memory : Memory.wf [(1, 7), (4095, 9)] = true ∧ Memory.wf [(2, 7), (1, 9)] = false ∧
    Memory.wf [(1, 0)] = false ∧ Memory.wf [(4096, 1)] = false := by decide

/-! ### Decoding: every constructor by a word written out bit by bit from rule R115's map -/

theorem test_decode_class0 : decodeTableWord 16 0b0000000011100000 = some .cls ∧
    decodeTableWord 16 0b0000000011101110 = some .ret := by decide

theorem test_decode_jumps : decodeTableWord 16 0b0001001000110100 = some (.jp 0x234) ∧
    decodeTableWord 16 0b0010101111001101 = some (.call 0xBCD) ∧
    decodeTableWord 16 0b1011111100000001 = some (.jpV0 0xF01) := by decide

theorem test_decode_skips : decodeTableWord 16 0b0011000110100101 = some (.seVxNn 1 0xA5) ∧
    decodeTableWord 16 0b0100101000000001 = some (.sneVxNn 10 0x01) ∧
    decodeTableWord 16 0b0101001101000000 = some (.seVxVy 3 4) ∧
    decodeTableWord 16 0b1001111000010000 = some (.sneVxVy 14 1) := by decide

theorem test_decode_immediates : decodeTableWord 16 0b0110101001110111 = some (.ldVxNn 10 0x77) ∧
    decodeTableWord 16 0b0111000111111110 = some (.addVxNn 1 0xFE) ∧
    decodeTableWord 16 0b1100001000001111 = some (.rnd 2 0x0F) := by decide

theorem test_decode_logic : decodeTableWord 16 0b1000000111100000 = some (.ldVxVy 1 14) ∧
    decodeTableWord 16 0b1000001000110001 = some (.or 2 3) ∧
    decodeTableWord 16 0b1000010001010010 = some (.and 4 5) ∧
    decodeTableWord 16 0b1000011001110011 = some (.xor 6 7) := by decide

theorem test_decode_arithmetic : decodeTableWord 16 0b1000000100100100 = some (.addVxVy 1 2) ∧
    decodeTableWord 16 0b1000001101000101 = some (.sub 3 4) ∧
    decodeTableWord 16 0b1000010101100110 = some (.shr 5 6) ∧
    decodeTableWord 16 0b1000011110000111 = some (.subn 7 8) ∧
    decodeTableWord 16 0b1000100110101110 = some (.shl 9 10) := by decide

theorem test_decode_display : decodeTableWord 16 0b1101000100100101 = some (.drw 1 2 5) := by decide

theorem test_decode_index : decodeTableWord 16 0b1010001100000001 = some (.ldINnn 0x301) ∧
    decodeTableWord 16 0b1111001000011110 = some (.addIVx 2) ∧
    decodeTableWord 16 0b1111001100101001 = some (.ldFVx 3) ∧
    decodeTableWord 16 0b1111010000110011 = some (.ldBVx 4) ∧
    decodeTableWord 16 0b1111010101010101 = some (.ldMemVx 5) ∧
    decodeTableWord 16 0b1111011001100101 = some (.ldVxMem 6) := by decide

theorem test_decode_timers_keys : decodeTableWord 16 0b1111000100000111 = some (.ldVxDt 1) ∧
    decodeTableWord 16 0b1111001000001010 = some (.ldVxK 2) ∧
    decodeTableWord 16 0b1111001100010101 = some (.ldDtVx 3) ∧
    decodeTableWord 16 0b1111010000011000 = some (.ldStVx 4) := by decide

/-- Section 2.2 of the vectors: words that are not instructions. -/
theorem test_decode_illegal : ∀ w ∈ ([0x0000, 0x00E1, 0x00EF, 0x01E0, 0x0123, 0x0FFF, 0x5001, 0x5FF1, 0x8008, 0x8009, 0x800A,
    0x800B, 0x800C, 0x800D, 0x800F, 0x9001, 0xE000, 0xE09E, 0xE0A1, 0xEFFF, 0xF000, 0xF00B, 0xF01F, 0xF030, 0xF075,
    0xF085, 0xF0FF, 0xFFFF] : List Nat), decodeTableWord 16 w = none := by decide

/-- Big-endian: the first byte is the high one (rule R83). -/
theorem test_decode_bytes : decodeBytes [0x60, 0x12, 0xF0, 0x33] = .ok (.ldVxNn 0 0x12, [0xF0, 0x33]) := by rfl

/-! ### One step per instruction -/

/-- T1 and T3's second step. -/
theorem test_jp : pcAndFault (start 0x200 0x1234) = some (0x234, none) ∧
    (after (start 0x200 0x1FFF)).bind after = after ((start 0x200 0x1FFF).setPc 0xFFF) ∧
    pcAndFault ((start 0x200 0x1FFF).setPc 0xFFF) = some (0xFFF, some (.pcOutOfBounds 0xFFF)) := by decide

/-- T4. -/
theorem test_call : (after (start 0x206 0x2210)).map (fun t => (t.pc, t.stack)) = some (0x210, [0x208]) := by decide

/-- T5. -/
theorem test_call_full : pcAndFault (underDepth 2 ((start 0x206 0x2210).setStack [0x111, 0x222])) =
    some (0x208, some (.stackOverflow 0x206)) := by decide

/-- T6. -/
theorem test_ret : (after ((start 0x21C 0x00EE).setStack [0x111, 0x208])).map (fun t => (t.pc, t.stack)) =
    some (0x208, [0x111]) := by decide

/-- T7. -/
theorem test_ret_empty : pcAndFault (start 0x21C 0x00EE) = some (0x21E, some (.stackEmpty 0x21C)) := by decide

/-- T8 and T9. -/
theorem test_seVxNn : pcAndFault (start 0x208 0x3100) = some (0x20C, none) ∧
    pcAndFault (regs [(1, 4)] (start 0x208 0x3100)) = some (0x20A, none) := by decide

/-- T10 and T11. -/
theorem test_sneVxNn : pcAndFault (regs [(0, 0x12)] (start 0x200 0x4012)) = some (0x202, none) ∧
    pcAndFault (regs [(0, 0x12)] (start 0x200 0x4013)) = some (0x204, none) := by decide

/-- T12 and T13. -/
theorem test_seVxVy : pcAndFault (regs [(1, 7), (2, 7)] (start 0x200 0x5120)) = some (0x204, none) ∧
    pcAndFault (regs [(1, 7), (2, 8)] (start 0x200 0x5120)) = some (0x202, none) := by decide

/-- T16 and T17. -/
theorem test_sneVxVy : pcAndFault (regs [(3, 4), (4, 5)] (start 0x204 0x9340)) = some (0x208, none) ∧
    pcAndFault (regs [(3, 4), (4, 4)] (start 0x204 0x9340)) = some (0x206, none) := by decide

/-- T20 and T21. -/
theorem test_jpV0 : pcAndFault (regs [(0, 4)] (start 0x200 0xB300)) = some (0x304, none) ∧
    pcAndFault (regs [(0, 0xFF)] (start 0x200 0xBFFF)) = some (0x10FE, none) := by decide

/-- T15: the skip's word with `n ≠ 0` is illegal. -/
theorem test_illegal : pcAndFault (start 0x200 0x5121) = some (0x202, some (.illegalInstruction 0x5121 0x200)) := by decide

/-- T24 and T25: 0xFFF faults, an odd `pc` does not. -/
theorem test_fetch : pcAndFault (bytes 0xFFF [0x12] (State.reset.setPc 0xFFF)) = some (0xFFF, some (.pcOutOfBounds 0xFFF)) ∧
    pcAnd 10 0 (start 0x201 0x6A77) = some (0x203, 0x77, 0) := by decide

/-- T31. -/
theorem test_ldVxNn : pcAnd 15 0 (start 0x200 0x6FAB) = some (0x202, 0xAB, 0) := by decide

/-- T40 and T41. -/
theorem test_addVxNn : pcAnd 1 15 (regs [(1, 5), (15, 0xAA)] (start 0x200 0x71FF)) = some (0x202, 4, 0xAA) ∧
    pcAnd 15 0 (regs [(15, 0xFF)] (start 0x200 0x7F01)) = some (0x202, 0, 0) := by decide

/-- T43. -/
theorem test_ldVxVy : pcAnd 2 3 (regs [(2, 0xF0), (3, 0x3C)] (start 0x200 0x8230)) = some (0x202, 0x3C, 0x3C) := by decide

/-- T44. -/
theorem test_or : pcAnd 2 15 (regs [(2, 0xF0), (3, 0x3C), (15, 0x55)] (start 0x200 0x8231)) = some (0x202, 0xFC, 0x55) := by
  decide

/-- T45. -/
theorem test_and : pcAnd 2 15 (regs [(2, 0xF0), (3, 0x3C), (15, 0x55)] (start 0x200 0x8232)) = some (0x202, 0x30, 0x55) := by
  decide

/-- T46. -/
theorem test_xor : pcAnd 2 15 (regs [(2, 0xF0), (3, 0x3C), (15, 0x55)] (start 0x200 0x8233)) = some (0x202, 0xCC, 0x55) := by
  decide

/-- T51 and T53. -/
theorem test_addVxVy : pcAnd 0 15 (regs [(0, 0xFF), (1, 1)] (start 0x200 0x8014)) = some (0x202, 0, 1) ∧
    pcAnd 0 15 (regs [(0, 0x80), (1, 0x7F)] (start 0x200 0x8014)) = some (0x202, 0xFF, 0) := by decide

/-- T55 and T56: the flag is written last. -/
theorem test_addVxVy_alias : pcAnd 15 1 (regs [(15, 0xF0), (1, 0x20)] (start 0x200 0x8F14)) = some (0x202, 1, 0x20) ∧
    pcAnd 0 15 (regs [(0, 0xFF), (15, 1)] (start 0x200 0x80F4)) = some (0x202, 0, 1) := by decide

/-- T61 and T62. -/
theorem test_sub : pcAnd 0 15 (regs [(0, 5), (1, 7)] (start 0x200 0x8015)) = some (0x202, 0xFE, 0) ∧
    pcAnd 0 15 (regs [(0, 7), (1, 7)] (start 0x200 0x8015)) = some (0x202, 0, 0) := by decide

/-- T64, T66 and T67: the flag is written first. -/
theorem test_sub_alias : pcAnd 0 15 (regs [(0, 7), (15, 5)] (start 0x200 0x80F5)) = some (0x202, 6, 1) ∧
    pcAnd 15 1 (regs [(15, 7), (1, 5)] (start 0x200 0x8F15)) = some (0x202, 0xFC, 5) ∧
    pcAnd 15 1 (regs [(15, 5), (1, 7)] (start 0x200 0x8F15)) = some (0x202, 0xF9, 7) := by decide

/-- T70 and T71. -/
theorem test_subn : pcAnd 0 15 (regs [(0, 5), (1, 7)] (start 0x200 0x8017)) = some (0x202, 2, 1) ∧
    pcAnd 0 15 (regs [(0, 7), (1, 5)] (start 0x200 0x8017)) = some (0x202, 0xFE, 0) := by decide

/-- T73, T75 and T77. -/
theorem test_subn_alias : pcAnd 0 15 (regs [(0, 5), (15, 7)] (start 0x200 0x80F7)) = some (0x202, 0xFC, 1) ∧
    pcAnd 15 1 (regs [(15, 5), (1, 7)] (start 0x200 0x8F17)) = some (0x202, 6, 7) ∧
    pcAnd 15 1 (regs [(15, 9)] (start 0x200 0x8FF7)) = some (0x202, 0, 0) := by decide

/-- T80 under both values of `SHIFT_SRC`. -/
theorem test_shr : pcAnd 0 15 (regs [(0, 0xAA), (1, 5)] (start 0x200 0x8016)) = some (0x202, 2, 1) ∧
    pcAnd 0 15 (underVx (regs [(0, 0xAA), (1, 5)] (start 0x200 0x8016))) = some (0x202, 0x55, 0) := by decide

/-- T84 and T86. -/
theorem test_shr_alias : pcAnd 0 15 (underVx (regs [(0, 2), (15, 3)] (start 0x200 0x80F6))) = some (0x202, 1, 0) ∧
    pcAnd 15 0 (regs [(15, 3)] (start 0x200 0x8FF6)) = some (0x202, 0, 0) := by decide

/-- T90 under both values of `SHIFT_SRC`. -/
theorem test_shl : pcAnd 0 15 (regs [(0, 0x40), (1, 0x81)] (start 0x200 0x801E)) = some (0x202, 2, 1) ∧
    pcAnd 0 15 (underVx (regs [(0, 0x40), (1, 0x81)] (start 0x200 0x801E))) = some (0x202, 0x80, 0) := by decide

/-- T95 and T96. -/
theorem test_shl_alias : pcAnd 15 1 (regs [(15, 1), (1, 0x80)] (start 0x200 0x8F1E)) = some (0x202, 2, 0x80) ∧
    pcAnd 15 1 (underVx (regs [(15, 0x80), (1, 1)] (start 0x200 0x8F1E))) = some (0x202, 2, 1) := by decide

/-- T101: a mask of zero leaves zero whatever is drawn; the count of draws advances. -/
theorem test_rnd : exec (.rnd 0 0) State.reset = .next { State.reset.setV 0 (Config.freeByte 0 &&& 0) with draws := 1 } ∧
    Config.freeByte 0 &&& 0 = 0 := ⟨rfl, by simp⟩

/-- T111. -/
theorem test_ldINnn : (after (start 0x200 0xAFFF)).map (·.i) = some 0xFFF := by decide

/-- T113 and T114. -/
theorem test_addIVx : (after (regs [(0, 1)] ((start 0x200 0xF01E).setI 0xFFFF))).map (·.i) = some 0 ∧
    (after (regs [(0, 1)] ((start 0x200 0xF01E).setI 0xFFF))).map (·.i) = some 0x1000 := by decide

/-- T122 and T124. -/
theorem test_ldFVx : (after (regs [(0, 0x0F)] (start 0x200 0xF029))).map (·.i) = some 0x9B ∧
    (after (regs [(0, 0xFF)] (start 0x200 0xF029))).map (·.i) = some 0x54B := by decide

/-- T135 and T136. -/
theorem test_ldBVx :
    (after (regs [(0, 0xC7)] ((start 0x200 0xF033).setI 0x300))).map
      (fun t => (t.memRead 0x300, t.memRead 0x301, t.memRead 0x302)) = some (1, 9, 9) ∧
    (after (regs [(0, 0xFF)] ((start 0x200 0xF033).setI 0xFFD))).map
      (fun t => (t.memRead 0xFFD, t.memRead 0xFFE, t.memRead 0xFFF)) = some (2, 5, 5) := by decide

/-- T137 and T138. -/
theorem test_ldBVx_outside :
    pcAndFault (regs [(0, 0xFF)] ((start 0x200 0xF033).setI 0xFFE)) = some (0x202, some (.memOutOfBounds 0x1000)) ∧
    pcAndFault (regs [(0, 0xFF)] ((start 0x200 0xF033).setI 0x1234)) = some (0x202, some (.memOutOfBounds 0x1234)) := by decide

/-- T140. -/
theorem test_ldMemVx : (after (regs [(0, 1), (1, 2), (2, 3), (3, 4)] ((start 0x200 0xF255).setI 0x300))).map
    (fun t => (t.memRead 0x300, t.memRead 0x301, t.memRead 0x302, t.memRead 0x303, t.i)) = some (1, 2, 3, 0, 0x300) := by decide

/-- T142. -/
theorem test_ldMemVx_outside : (after (regs [(0, 0x99), (1, 0x88)] ((start 0x200 0xF155).setI 0xFFF))).map
    (fun t => (t.memRead 0xFFF, t.fault)) = some (0, some (.memOutOfBounds 0x1000)) := by decide

/-- T150. -/
theorem test_ldVxMem : (after (regs [(3, 0x77)] (bytes 0x300 [0x0A, 0x0B, 0x0C, 0x0D] ((start 0x200 0xF265).setI 0x300)))).map
    (fun t => (t.getV 0, t.getV 1, t.getV 2, t.getV 3, t.i)) = some (0x0A, 0x0B, 0x0C, 0x77, 0x300) := by decide

/-- T152 and T153. -/
theorem test_ldVxMem_edge :
    (after (regs [(0, 5)] ((start 0x200 0xFF65).setI 0xFF1))).map (fun t => (t.getV 0, t.fault)) =
      some (5, some (.memOutOfBounds 0x1000)) ∧
    pcAnd 14 15 (bytes 0xFFF [0xEE] ((start 0x200 0xFF65).setI 0xFF0)) = some (0x202, 0, 0xEE) := by decide

/-- T160. -/
theorem test_cls : (after (regs [(15, 7)] (lit [(0, 0), (31, 63)] (start 0x200 0x00E0)))).map (fun t => (t.fb, t.getV 15)) =
    some (Vector.replicate 32 0, 7) := by decide

/-- The start of T162: the sprite F0 90 at the corner. -/
def corner : State := regs [(0, 0x3E), (1, 0x1F)] (bytes 0x300 [0xF0, 0x90] ((start 0x200 0xD012).setI 0x300))

/-- T162 under both values of `DRAW_EDGE`. -/
theorem test_drw_edges :
    (after corner).map (·.fb) =
      some (lit [(31, 62), (31, 63), (31, 0), (31, 1), (0, 62), (0, 1)] State.reset).fb ∧
    (after (underClip corner)).map (·.fb) = some (lit [(31, 62), (31, 63)] State.reset).fb := by decide

/-- T165 and T172: a collision, and the position taken from the old `VF`. -/
theorem test_drw_collision :
    (after (lit [(0, 7)] (bytes 0x300 [0xFF] ((start 0x200 0xD011).setI 0x300)))).map (fun t => (t.fb, t.getV 15)) =
      some ((lit [(0, 0), (0, 1), (0, 2), (0, 3), (0, 4), (0, 5), (0, 6)] State.reset).fb, 1) ∧
    (after (regs [(15, 5), (1, 1)] (lit [(1, 5)] (bytes 0x300 [0x80] ((start 0x200 0xDF11).setI 0x300))))).map
      (fun t => (t.fb, t.getV 15)) = some (Vector.replicate 32 0, 1) := by decide

/-- T180. -/
theorem test_ldVxDt : pcAnd 1 0 ((start 0x200 0xF107).setDt 0x3A) = some (0x202, 0x3A, 0) := by decide

/-- T181. -/
theorem test_ldDtVx : (after (regs [(0, 0x3C)] (start 0x200 0xF015))).map (fun t => (t.dt, t.st)) = some (0x3C, 0) := by decide

/-- T182. -/
theorem test_ldStVx : (after (regs [(0, 0x3C)] (start 0x200 0xF018))).map (fun t => (t.dt, t.st)) = some (0, 0x3C) := by decide

/-- T183, T185 and T186. -/
theorem test_ldVxK : pcAnd 2 0 (regs [(2, 9)] (start 0x208 0xF20A)) = some (0x208, 9, 0) ∧
    pcAnd 2 0 (regs [(2, 9)] ((start 0x208 0xF20A).setKey (some 0))) = some (0x20A, 0, 0) ∧
    pcAnd 2 0 ((start 0x208 0xF20A).setKey (some 15)) = some (0x20A, 15, 0) := by decide

/-- T187, T189 and T190. -/
theorem test_tick : ((timerTick ((State.reset.setDt 2).setSt 1)).dt, (timerTick ((State.reset.setDt 2).setSt 1)).st) = (1, 0) ∧
    (timerTick State.reset).dt = 0 ∧ (timerTick ((State.reset.setDt 5).raise (.stackEmpty 0x200))).dt = 5 := by decide

/-! ### Fairness: a schedule that meets it and one that does not -/

/-- Steps and ticks in turn. -/
theorem test_fair_alternating : Schedule.Fair (fun n => if n % 2 = 0 then .step else .tick) :=
  fun _ n => ⟨2 * n + 1, by omega, by simp [Nat.add_mod]⟩

/-- Steps alone, as P9 without any tick. -/
theorem test_not_fair_steps_alone : ¬ Schedule.Fair (fun _ => .step) := by
  intro h
  obtain ⟨_, _, e⟩ := h (fun n => ⟨n, le_refl n, rfl⟩) 0
  cases e

/-! ### The free value is free: no draw is zero by the model's choice -/

/-- T100: from whatever byte `d` the draw is, `C00F` leaves its low four bits. -/
theorem test_rnd_mask (d : Byte) (h : Config.freeByte 0 = d) :
    exec (.rnd 0 0x0F) State.reset = .next { State.reset.setV 0 (d &&& 0x0F) with draws := 1 } := by subst h; rfl

/-! ### Witnesses: every obligation with hypotheses has a state and operands that meet them -/

/-- A state that is not reset's and meets the invariant: registers, stack, memory and pixels in use. -/
def busy : State :=
  lit [(0, 0), (0, 7)] (underDepth 4 ((regs [(0, 3), (1, 7), (2, 9), (15, 5)] (bytes 0x300 [0xA5, 0x81] ((start 0x200 0xD011).setI 0x300))).setStack
    [0x208]))

/-- `busy` as the execute phase sees it. -/
def busyExec : State := busy.setPc 0x202

theorem witness_EncodeOfDecodeIsTheWord : decodeWord 0xD125 = .ok (.drw 1 2 5) := by rfl

theorem witness_LegalWordsAreTheOpcodeMap : (∃ i, decodeWord 0x8FFE = .ok i) ∧ (∃ e, decodeWord 0x800F = .error e) :=
  ⟨⟨_, rfl⟩, ⟨_, rfl⟩⟩

theorem witness_OpcodeMapRowsDoNotOverlap :
    (⟨0xF00F, 0x8004⟩ : OpcodeRow) ∈ opcodeMap ∧ (0x8AB4 : Word) &&& 0xF00F = 0x8004 := by decide

/-- A word for each clause: the first and last illegal word of the class beside the legal ones. -/
theorem witness_IllegalWordsByClass : ∀ w ∈ ([0x00E1, 0x00EF, 0x5001, 0x5FFF, 0x8008, 0x8FFF, 0x9001, 0x9FFF, 0xE000, 0xEFFF,
    0xF000, 0xFFFF] : List Nat), decodeTableWord 16 w = none := by decide

/-- At `pc` 0x200 and at the last address a word can be fetched from. -/
theorem witness_StepRunsTheDecodedInstruction :
    ((start 0x200 0x6012).fault = none ∧ (start 0x200 0x6012).pc.toNat ≤ 4094 ∧
      decodeBytes [(start 0x200 0x6012).memRead (start 0x200 0x6012).pc.toNat,
        (start 0x200 0x6012).memRead ((start 0x200 0x6012).pc.toNat + 1)] = .ok (.ldVxNn 0 0x12, [])) ∧
    ((start 0xFFE 0x6012).fault = none ∧ (start 0xFFE 0x6012).pc.toNat ≤ 4094 ∧
      decodeBytes [(start 0xFFE 0x6012).memRead (start 0xFFE 0x6012).pc.toNat,
        (start 0xFFE 0x6012).memRead ((start 0xFFE 0x6012).pc.toNat + 1)] = .ok (.ldVxNn 0 0x12, [])) :=
  ⟨⟨by decide, by decide, rfl⟩, ⟨by decide, by decide, rfl⟩⟩

theorem witness_IllegalWordRaisesIllegalInstruction : (start 0xFFE 0xE09E).fault = none ∧ (start 0xFFE 0xE09E).pc.toNat ≤ 4094 ∧
    (0xE09E : Word) = (start 0xFFE 0xE09E).memRead (start 0xFFE 0xE09E).pc.toNat ++
      (start 0xFFE 0xE09E).memRead ((start 0xFFE 0xE09E).pc.toNat + 1) ∧
    decodeWord 0xE09E = .error .illegalClassE := ⟨by decide, by decide, rfl, rfl⟩

/-- At 4095, at 4096 and at the largest `pc` a program can reach. -/
theorem witness_FetchOutsideMemoryRaisesPcOutOfBounds :
    ((State.reset.setPc 0xFFF).fault = none ∧ (State.reset.setPc 0xFFF).pc.toNat ≥ 4095) ∧
    ((State.reset.setPc 0x1000).fault = none ∧ (State.reset.setPc 0x1000).pc.toNat ≥ 4095) ∧
    ((State.reset.setPc 0x10FE).fault = none ∧ (State.reset.setPc 0x10FE).pc.toNat ≥ 4095) := by decide

theorem witness_FaultedCoreDoesNothing : (busy.raise (.stackEmpty 0x200)).fault = some (.stackEmpty 0x200) := by decide

theorem witness_EveryStepKeepsTheInvariant : busy.inv = true ∧ ∃ t, step busy = .next t := ⟨by decide, _, rfl⟩

/-- The invariant also meets a faulted state: the one after T7. -/
theorem witness_EveryStepKeepsTheInvariant_faulted :
    ((start 0x21C 0x00EE).setPc 0x21E |>.raise (.stackEmpty 0x21C)).inv = true := by decide

/-- One event of each port. -/
theorem witness_EveryEventKeepsTheInvariant :
    busy.inv = true ∧ ∀ e ∈ ([.reset, .load [1, 2], .step, .tick, .key (some 7), .observe] : List Event),
      ∃ z, Session.apply e { core := busy, loadOpen := true } = .next z := by
  refine ⟨by decide, ?_⟩
  simp only [List.forall_mem_cons]
  exact ⟨⟨_, rfl⟩, ⟨_, rfl⟩, ⟨_, rfl⟩, ⟨_, rfl⟩, ⟨_, rfl⟩, ⟨_, rfl⟩, by simp⟩

theorem witness_ReadAfterWriteGivesTheByteWritten : busy.mem.wf = true ∧ (0 : Nat) < 4096 ∧ (4095 : Nat) < 4096 := by decide

/-- Fetches at the stored block's first byte, one byte before it, at its last byte, and at the last address there is. -/
theorem witness_StoreIsSeenByTheNextFetch : busyExec.mem.wf = true ∧ (busyExec.pc).toNat ≤ 4094 ∧ (0xFFE : Word).toNat ≤ 4094 ∧
    InMemory busyExec ((0 : Reg).val + 1) ∧ InMemory (busyExec.setI 0xFF0) ((15 : Reg).val + 1) ∧ InMemory (busyExec.setI 0xFFD) 3 := by
  unfold InMemory; decide

/-- P5 in one step, and a block whose only byte is the second of the fetched word. -/
theorem test_store_then_fetch :
    (after (regs [(0, 0x12), (1, 0x0A)] ((start 0x206 0xF155).setI 0x208))).map (fun t => t.fetch.toOption.map (·.1)) = some (some 0x120A) ∧
    (after (regs [(0, 0x34)] ((start 0x206 0xF055).setI 0x209))).map (fun t => t.fetch.toOption.map (·.1)) = some (some 0x0034) ∧
    (after (regs [(0, 0xC7)] ((start 0x206 0xF033).setI 0x207))).map (fun t => t.fetch.toOption.map (·.1)) = some (some 0x0909) := by
  decide

/-- Instructions that leave `pc` at each kind of place, none of them faulting. -/
theorem witness_PcAfterEachInstruction : busyExec.pc = 0x200 + 2 ∧ busyExec.fault = none ∧
    ∀ i ∈ ([.jp 0xFFF, .jpV0 0xFFF, .call 0x300, .ret, .seVxNn 0 3, .sneVxNn 0 3, .ldVxK 0, .drw 0 1 15] : List Instr),
      ∃ t, exec i busyExec = .next t ∧ t.fault = none := by
  refine ⟨by decide, by decide, ?_⟩
  simp only [List.forall_mem_cons]
  exact ⟨⟨_, rfl, rfl⟩, ⟨_, rfl, rfl⟩, ⟨_, rfl, rfl⟩, ⟨_, rfl, rfl⟩, ⟨_, rfl, rfl⟩, ⟨_, rfl, rfl⟩, ⟨_, rfl, rfl⟩,
    ⟨_, rfl, by decide⟩, by simp⟩

/-- Each fault of an execute phase, and an instruction that raises none. -/
theorem witness_FaultsAreExactlyTheTable : (State.reset.setPc 0x202).fault = none ∧ busyExec.fault = none ∧
    (∃ t, exec .ret (State.reset.setPc 0x202) = .next t ∧ t.fault = some (.stackEmpty 0x200)) ∧
    (∃ t, exec (.call 0x300) (underDepth 1 busyExec) = .next t ∧ t.fault = some (.stackOverflow 0x200)) ∧
    (∃ t, exec (.ldBVx 0) (busyExec.setI 0xFFE) = .next t ∧ t.fault = some (.memOutOfBounds 0x1000)) ∧
    (∃ t, exec .ret busyExec = .next t ∧ t.fault = none) :=
  ⟨rfl, rfl, ⟨_, rfl, rfl⟩, ⟨_, rfl, by decide⟩, ⟨_, rfl, by decide⟩, ⟨_, rfl, rfl⟩⟩

theorem witness_FaultingInstructionChangesNothingElse : (busyExec.setI 0xFFF).fault = none ∧
    ∃ t, exec (.ldMemVx 1) (busyExec.setI 0xFFF) = .next t ∧ t.fault ≠ none := ⟨rfl, _, rfl, by decide⟩

theorem witness_RegistersChangeOnlyByTheirWriters : (∃ t, exec (.addVxVy 0 1) busyExec = .next t) ∧
    (∃ t, exec (.ldVxMem 15) busyExec = .next t) := ⟨⟨_, rfl⟩, ⟨_, rfl⟩⟩

theorem witness_MemoryChangesOnlyByStores : (∃ t, exec (.ldBVx 2) busyExec = .next t) ∧ storeSize (.ldBVx 2) = 3 :=
  ⟨⟨_, rfl⟩, rfl⟩

/-- `7xnn` is none of the writers that the clauses exclude. -/
theorem witness_StateChangesOnlyByItsWriters : (∃ t, exec (.addVxNn 0 1) busyExec = .next t) ∧ Instr.addVxNn 0 1 ≠ .cls ∧
    (∀ x y n, Instr.addVxNn 0 1 ≠ .drw x y n) ∧ Instr.addVxNn 0 1 ≠ .ret ∧ (∀ nnn, Instr.addVxNn 0 1 ≠ .call nnn) ∧
    (∀ nnn, Instr.addVxNn 0 1 ≠ .ldINnn nnn) ∧ (∀ x, Instr.addVxNn 0 1 ≠ .addIVx x) ∧ (∀ x, Instr.addVxNn 0 1 ≠ .ldFVx x) ∧
    (∀ x, Instr.addVxNn 0 1 ≠ .ldDtVx x) ∧ (∀ x, Instr.addVxNn 0 1 ≠ .ldStVx x) := by
  refine ⟨⟨_, rfl⟩, ?_⟩
  simp

theorem witness_KeyIsReadOnlyByKeyWait : (∀ x, Instr.drw 0 1 1 ≠ .ldVxK x) ∧ ∃ t, exec (.drw 0 1 1) busyExec = .next t :=
  ⟨by simp, _, rfl⟩

theorem witness_TickCommutesWithOtherInstructions : (busyExec.setDt 3).fault = none ∧ (∀ x, Instr.call 0x300 ≠ .ldVxDt x) ∧
    (∀ x, Instr.call 0x300 ≠ .ldDtVx x) ∧ (∀ x, Instr.call 0x300 ≠ .ldStVx x) ∧
    ∃ t, exec (.call 0x300) (busyExec.setDt 3) = .next t ∧ t.fault = none :=
  ⟨rfl, by simp, by simp, by simp, _, rfl, rfl⟩

/-- T2, and the last address at which a program can settle. -/
theorem witness_SettledStateStaysAsItIs : (start 0x200 0x1200).settled = true ∧ (start 0xFFE 0x1FFE).settled = true := by decide

/-- Both outcomes of each condition are met: `V[0]` = 3 and `V[1]` = 7. -/
theorem witness_SkipsAddTwoWhenTheConditionHolds : busyExec.pc = 0x200 + 2 ∧ busyExec.getV 0 = 3 ∧ busyExec.getV 0 ≠ 4 ∧
    busyExec.getV 0 ≠ busyExec.getV 1 ∧ (State.reset.setPc 0x1000).pc = 0xFFE + 2 := by decide

/-- Below the depth, under no bound, and at the depth (T5). -/
theorem witness_CallPushesTheReturnAddress : busyExec.params.stackDepth ≠ some busyExec.stack.length ∧
    State.reset.params.stackDepth ≠ some State.reset.stack.length ∧
    (underDepth 1 busyExec).params.stackDepth = some (underDepth 1 busyExec).stack.length := by decide

/-- One entry, two entries (T6), none (T7). -/
theorem witness_ReturnPopsTheStack : busyExec.stack = [] ++ [0x208] ∧
    (busyExec.setStack [0x111, 0x208]).stack = [0x111] ++ [0x208] ∧ State.reset.stack = [] := by decide

theorem witness_ReturnUndoesCall : busyExec.params.stackDepth ≠ some busyExec.stack.length ∧
    ∃ t, exec (.call 0x300) busyExec = .next t := ⟨by decide, _, rfl⟩

/-- `VF` as a destination, and beside it; sums of exactly 255 and 256 (T53, T51). -/
theorem witness_AddSetsTheCarry : (0 : Reg) ≠ VF ∧ ¬ (VF ≠ VF) ∧
    pcAnd 0 15 (regs [(0, 0xFF), (1, 0)] (start 0x200 0x8014)) = some (0x202, 0xFF, 0) := by decide

theorem witness_SubtractSetsTheStrictComparison : (0 : Reg) ≠ VF ∧ (14 : Reg) ≠ VF := by decide

theorem witness_SubtractAliasForms : (0 : Reg) ≠ VF ∧ (14 : Reg) ≠ VF := by decide

theorem witness_ShiftsMoveOnePosition : (0 : Reg) ≠ VF ∧
    (7 : Byte) = (if busyExec.params.shiftSrc = .vy then busyExec.getV 1 else busyExec.getV 0) ∧
    (3 : Byte) = (if (underVx busyExec).params.shiftSrc = .vy then (underVx busyExec).getV 1 else (underVx busyExec).getV 0) := by
  decide

theorem witness_ShiftAliasForms :
    (7 : Byte) = (if busyExec.params.shiftSrc = .vy then busyExec.getV 1 else busyExec.getV VF) ∧
    (5 : Byte) = (if (underVx busyExec).params.shiftSrc = .vy then (underVx busyExec).getV 1 else (underVx busyExec).getV VF) := by
  decide

/-- A mask with a clear bit and one with none. -/
theorem witness_RandomIsADrawUnderTheMask : (0x0F : Byte).getLsbD 7 = false ∧ (0xFF : Byte).getLsbD 7 = true := by decide

/-- In the middle, and at the last address at which three bytes fit (T136). -/
theorem witness_BcdStoresTheDecimalDigits : busyExec.mem.wf = true ∧ InMemory busyExec 3 ∧ InMemory (busyExec.setI 0xFFD) 3 := by
  unfold InMemory; decide

/-- One register at the last byte (T141), all sixteen at the last place they fit (T153). -/
theorem witness_RegisterBlockIsStored : busyExec.mem.wf = true ∧ InMemory (busyExec.setI 0xFFF) ((0 : Reg).val + 1) ∧
    InMemory (busyExec.setI 0xFF0) ((15 : Reg).val + 1) := by
  unfold InMemory; decide

theorem witness_RegisterBlockIsLoaded : InMemory (busyExec.setI 0xFFF) ((0 : Reg).val + 1) ∧
    InMemory (busyExec.setI 0xFF0) ((15 : Reg).val + 1) ∧ (0 : Reg) ≤ 0 ∧ (0 : Reg) < 15 := by
  unfold InMemory; decide

theorem witness_LoadAfterStoreRestoresTheRegisters : busyExec.mem.wf = true ∧ InMemory busyExec ((15 : Reg).val + 1) ∧
    ∃ t, exec (.ldMemVx 15) busyExec = .next t ∧
      ∃ u, exec (.ldVxMem 15) { t with v := Vector.replicate 16 0, pc := 0x204 } = .next u :=
  ⟨by decide, by unfold InMemory; decide, _, rfl, _, rfl⟩

/-- `I` just below the end, at the end, and far above it. -/
theorem witness_AccessOutsideMemoryRaisesMemOutOfBounds : 1 ≤ accessSize (.ldMemVx 1) ∧
    ¬ InMemory (busyExec.setI 0xFFF) (accessSize (.ldMemVx 1)) ∧ ¬ InMemory (busyExec.setI 0x1000) (accessSize (.ldMemVx 1)) ∧
    ¬ InMemory (busyExec.setI 0xFFFF) (accessSize (.drw 0 1 15)) := by
  unfold InMemory; decide

/-- No rows at an address outside memory (T168), and fifteen at the last place they fit. -/
theorem witness_DrawIsExclusiveOrWithTheSprite : (((0 : Fin 16).val = 0) ∨ InMemory (busyExec.setI 0x2000) (0 : Fin 16).val) ∧
    ((15 : Fin 16).val = 0 ∨ InMemory (busyExec.setI 0xFF1) (15 : Fin 16).val) :=
  ⟨.inl rfl, .inr (by unfold InMemory; decide)⟩

/-- A sprite over lit pixels, and one over none: the second draw's flag differs, as the statement says. -/
theorem witness_DrawingTwiceRestoresTheFramebuffer : (0 : Reg) ≠ VF ∧ (1 : Reg) ≠ VF ∧ InMemory busyExec (1 : Fin 16).val ∧
    ∃ t, exec (.drw 0 1 1) busyExec = .next t ∧ t.getV VF = 0 ∧
      ∃ u, exec (.drw 0 1 1) { t with pc := 0x202 } = .next u ∧ u.getV VF = 1 :=
  ⟨by decide, by decide, by unfold InMemory; decide, _, rfl, by decide, _, rfl, by decide⟩

/-- A sprite of one bit on a lit pixel: the first draw clears it, the second lights it and hits nothing, although the
sprite has a placed bit (log entry 22). -/
theorem witness_DrawingTwice_over_a_lit_pixel :
    ∃ t, exec (.drw 0 0 1) (bytes 0x300 [0x80] (lit [(3, 3)] busyExec)) = .next t ∧ t.getV VF = 1 ∧
      ∃ u, exec (.drw 0 0 1) { t with pc := 0x202 } = .next u ∧ u.getV VF = 0 ∧ u.fb = (lit [(3, 3)] busyExec).fb :=
  ⟨_, rfl, by decide, _, rfl, by decide, by decide⟩

/-- The last column and rows at which a sprite lies wholly on the screen. -/
theorem witness_EdgePoliciesAgreeOnTheScreen : ((regs [(0, 56), (1, 17)] busyExec).getV 0).toNat % 64 ≤ 56 ∧
    ((regs [(0, 56), (1, 17)] busyExec).getV 1).toNat % 32 + (15 : Fin 16).val ≤ 32 ∧
    ∃ t, exec (.drw 0 1 15) (regs [(0, 56), (1, 17)] busyExec) = .next t := ⟨by decide, by decide, _, rfl⟩

theorem witness_KeyWaitLoadsTheHeldKeyOrRepeats : busyExec.pc = 0x200 + 2 ∧ busyExec.key = none ∧
    (busyExec.setKey (some 0)).key = some 0 ∧ (busyExec.setKey (some 15)).key = some 15 := by decide

theorem witness_TicksCountBothTimersDown : ((State.reset.setDt 0xFF).setSt 1).fault = none := by decide

/-- Inside the window with the largest image and with one byte too many, and outside the window. -/
theorem witness_LoadCopiesTheImage : Session.reset.loadOpen = true ∧ Session.reset.core.mem.wf = true ∧
    (List.replicate 4096 (1 : Byte)).length ≤ 4096 ∧ 4096 < (List.replicate 4097 (1 : Byte)).length ∧
    ({ core := busy, loadOpen := false } : Session).loadOpen = false := by
  refine ⟨rfl, rfl, ?_, ?_, rfl⟩ <;> rw [List.length_replicate]
  decide

/-- The events of the last three clauses answer a next session. -/
theorem witness_LoadCopiesTheImage_window : ∀ e ∈ ([.step, .reset, .tick, .key (some 7), .observe] : List Event),
    ∃ z', Session.apply e { core := busy, loadOpen := true } = .next z' := by
  simp only [List.forall_mem_cons]
  exact ⟨⟨_, rfl⟩, ⟨_, rfl⟩, ⟨_, rfl⟩, ⟨_, rfl⟩, ⟨_, rfl⟩, by simp⟩

/-- S11: the largest program and one byte too many. -/
theorem witness_LoaderImageHasTheAddressMap : (List.replicate 3584 (1 : Byte)).length ≤ 3584 ∧
    3584 < (List.replicate 3585 (1 : Byte)).length := by
  constructor <;> rw [List.length_replicate]
  decide

theorem witness_DebuggerChangesTheCoreOnlyByStepping :
    ∃ d s reply, ({ mode := .running (some 1), breakpoints := [], suppress := true } : Debugger).iterate busy = .next (d, s, reply) :=
  ⟨_, _, _, rfl⟩

/-- S9: paused at the breakpoint 0x204 of a jump to itself. -/
theorem witness_BreakpointsHitAfterOneSuppressedIteration :
    ({ mode := .paused, breakpoints := [0x204], suppress := false } : Debugger).mode = .paused ∧
    ∃ t, step (start 0x204 0x1204) = .next t ∧ t.pc ∈ ([0x204] : List Word) := ⟨rfl, _, rfl, by decide⟩

end Sys2Proof.Tests
end

/-! PROOFS. What an execute phase and a step can do, each said once: an execute phase raises the fault of rule R250's
table and nothing else, or completes as rule R33's table says. -/

namespace Sys2Proof.Machine

/-! ### What raises a fault in the execute phase -/

/-- A checked block access raises the fault that `memFaultOf` gives, or runs its action (rule R86). -/
theorem State.withBlock_eq (s : State) (k : Nat) (act : State → State) :
    s.withBlock k act = (memFaultOf s k).elim (act s) s.raise := by
  unfold memFaultOf
  rcases s.withBlock_cases k act with ⟨h, e⟩ | ⟨hk, h, e⟩
  · rw [e, if_neg (by omega), Option.elim_none]
  · rw [e, if_pos (by omega), Option.elim_some]

theorem State.withBlock_of_memFault {s : State} {k : Nat} {f : FaultRecord} (h : memFaultOf s k = some f)
    (act : State → State) : s.withBlock k act = s.raise f := by
  rw [State.withBlock_eq, h, Option.elim_some]

theorem State.withBlock_of_no_memFault {s : State} {k : Nat} (h : memFaultOf s k = none) (act : State → State) :
    s.withBlock k act = act s := by
  rw [State.withBlock_eq, h, Option.elim_none]

/-- A data fault records `max(I, 4096)`, which 16 bits hold. -/
theorem memFaultOf_eq_some {s : State} {k : Nat} {f : FaultRecord} (h : memFaultOf s k = some f) :
    ∃ a : Word, f = .memOutOfBounds a ∧ a.toNat = max s.i.toNat 4096 := by
  unfold memFaultOf at h
  split at h
  · refine ⟨_, (Option.some.inj h).symm, ?_⟩
    rw [BitVec.toNat_ofNat]
    omega
  · cases h

/-- `00EE` on an empty stack (rule R142). -/
theorem execRet_of_nil {s : State} (h : s.stack = []) : execRet s = .next (s.raise (.stackEmpty s.ipc)) := by
  rw [execRet, h, List.getLast?_nil]

/-- `00EE` on a stack with an entry pops the top one into `pc` (rule R142). -/
theorem execRet_of_ne_nil {s : State} (h : s.stack ≠ []) :
    execRet s = .next ((s.setStack s.stack.dropLast).setPc (s.stack.getLastD 0)) := by
  rw [execRet, List.getLastD_eq_getLast?, List.getLast?_eq_some_getLast h, Option.getD_some]

/-- `2nnn` on a full stack (rule R143). -/
theorem execCall_of_full (nnn : BitVec 12) {s : State} (h : s.params.stackDepth = some s.stack.length) :
    execCall nnn s = .next (s.raise (.stackOverflow s.ipc)) := by
  rw [execCall, if_pos (s.stackFull_iff.2 h)]

/-- `2nnn` with room on the stack pushes `pc` and jumps (rule R143). -/
theorem execCall_of_not_full (nnn : BitVec 12) {s : State} (h : s.params.stackDepth ≠ some s.stack.length) :
    execCall nnn s = .next ((s.setStack (s.stack ++ [s.pc])).setPc (zextNnn nnn)) := by
  rw [execCall, if_neg (mt s.stackFull_iff.1 h)]

/-- An instruction to which rule R250's table gives a fault raises it and changes nothing else (rule R256). -/
theorem exec_of_faultOf_eq_some {i : Instr} {s : State} {f : FaultRecord} (h : faultOf s i = some f) :
    exec i s = .next (s.raise f) := by
  cases i with
  | ret =>
    simp only [faultOf, Option.ite_none_right_eq_some, Option.some.injEq] at h
    obtain ⟨hs, rfl⟩ := h
    exact execRet_of_nil hs
  | call nnn =>
    simp only [faultOf, Option.ite_none_right_eq_some, Option.some.injEq] at h
    obtain ⟨hs, rfl⟩ := h
    exact execCall_of_full nnn hs
  | drw _ _ _ | ldBVx _ | ldMemVx _ | ldVxMem _ => exact congrArg Host.Outcome.next (State.withBlock_of_memFault h _)
  | _ => cases h

/-! ### What an instruction that does not fault leaves -/

/-- The call stack an instruction leaves when it does not fault: only `00EE` and `2nnn` reach it (rules R36, R142 and
R143). `s.pc` is the return address, as everywhere in the execute phase. -/
def stackAfter (s : State) : Instr → List Word
  | .ret => s.stack.dropLast
  | .call _ => s.stack ++ [s.pc]
  | _ => s.stack

/-- An instruction has taken `s` to `t` without a fault: `pc` and the stack are as the tables `pcAfter` and `stackAfter`
say, the latch and the parameters are untouched, and memory keeps its canonical form. -/
structure Completes (i : Instr) (s t : State) : Prop where
  pc : t.pc = pcAfter (s.pc - 2) s i
  stack : t.stack = stackAfter s i
  fault : t.fault = s.fault
  params : t.params = s.params
  mem : s.mem.wf = true → t.mem.wf = true

/-- A skip goes to `ipc + 4` or `ipc + 2` (rule R140). -/
theorem completes_skipIf {i : Instr} {s : State} {P : Prop} [Decidable P]
    (hpc : pcAfter (s.pc - 2) s i = if P then s.pc - 2 + 4 else s.pc - 2 + 2) (hstack : stackAfter s i = s.stack) :
    Completes i s (s.skipIf (decide P)) := by
  rw [State.skipIf_eq]
  refine ⟨?_, hstack.symm, rfl, rfl, id⟩
  rw [hpc, State.setPc_pc]
  by_cases h : P
  · simp only [h, decide_true, if_true]
    bv_omega
  · simp only [h, decide_false, if_false, Bool.false_eq_true]
    bv_omega

/-- An instruction to which rule R250's table gives no fault completes. -/
theorem exec_of_faultOf_eq_none {i : Instr} {s : State} (h : faultOf s i = none) :
    ∃ t, exec i s = .next t ∧ Completes i s t := by
  have hnext : s.pc = s.pc - 2 + 2 := (BitVec.sub_add_cancel s.pc 2).symm
  cases i with
  | ret =>
    have hs : s.stack ≠ [] := fun hs => by simp [faultOf, hs] at h
    exact ⟨_, execRet_of_ne_nil hs, rfl, rfl, rfl, rfl, id⟩
  | call nnn =>
    have hs : s.params.stackDepth ≠ some s.stack.length := fun hs => by simp [faultOf, hs] at h
    exact ⟨_, execCall_of_not_full nnn hs, rfl, rfl, rfl, rfl, id⟩
  | jp _ | jpV0 _ => exact ⟨_, rfl, rfl, rfl, rfl, rfl, id⟩
  | seVxNn _ _ | sneVxNn _ _ | seVxVy _ _ | sneVxVy _ _ => exact ⟨_, rfl, completes_skipIf rfl rfl⟩
  | ldVxK x =>
    refine ⟨_, rfl, ?_⟩
    cases hk : s.key with
    | none => exact ⟨by simp [pcAfter, hk], rfl, rfl, rfl, id⟩
    | some k => exact ⟨by simp [pcAfter, hk], rfl, rfl, rfl, id⟩
  | shr _ _ | shl _ _ => exact ⟨_, congrArg Host.Outcome.next (State.shift_eq ..), hnext, rfl, rfl, rfl, id⟩
  | drw _ _ _ =>
    exact ⟨_, congrArg Host.Outcome.next (State.withBlock_of_no_memFault h _), hnext, rfl, rfl, rfl, id⟩
  | ldVxMem _ =>
    refine ⟨_, congrArg Host.Outcome.next (State.withBlock_of_no_memFault h _), ?_⟩
    rw [State.loadRegs_eq]
    exact ⟨hnext, rfl, rfl, rfl, id⟩
  | ldBVx _ | ldMemVx _ =>
    refine ⟨_, congrArg Host.Outcome.next (State.withBlock_of_no_memFault h _), ?_⟩
    exact ⟨(State.memWriteList_pc ..).trans hnext, State.memWriteList_stack .., State.memWriteList_fault ..,
      State.memWriteList_params .., fun hm => State.memWriteList_wf _ hm _⟩
  | _ => exact ⟨_, rfl, hnext, rfl, rfl, rfl, id⟩

/-! ### The four ways a step can go (rule R50) -/

theorem step_of_fault {s : State} {f : FaultRecord} (h : s.fault = some f) : step s = .next s := by
  rw [step, h]

theorem step_of_pc_ge {s : State} (h : s.fault = none) (hpc : 4095 ≤ s.pc.toNat) :
    step s = .next (s.raise (.pcOutOfBounds s.pc)) := by
  rw [step, h, s.fetch_of_ge hpc]

theorem step_of_decode_ok {s : State} (h : s.fault = none) (hpc : s.pc.toNat ≤ 4094) {i : Instr}
    (hd : decodeWord (s.wordAt s.pc.toNat) = .ok i) : step s = exec i (s.setPc (s.pc + 2)) := by
  simp only [step, h, s.fetch_of_le hpc, hd]

theorem step_of_decode_error {s : State} (h : s.fault = none) (hpc : s.pc.toNat ≤ 4094) {e : DecodeError}
    (hd : decodeWord (s.wordAt s.pc.toNat) = .error e) :
    step s = .next ((s.setPc (s.pc + 2)).raise (.illegalInstruction (s.wordAt s.pc.toNat) s.pc)) := by
  simp only [step, h, s.fetch_of_le hpc, hd, State.ipc, State.setPc_pc, BitVec.add_sub_cancel]

end Sys2Proof.Machine

/-! PROOFS. The invariant: every execute phase, every step and every event at a port keeps it. -/

namespace Sys2Proof.Machine

/-! ### The invariant with its parts named -/

/-- The parts of `State.inv`. -/
structure State.Inv (s : State) : Prop where
  mem : s.mem.wf = true
  params : s.params.wellFormed = true
  depth : s.stackWithinDepth = true
  returns : ∀ a ∈ s.stack, isReturnAddress a = true
  pc : s.pc.toNat ≤ 0x10FE
  latch : s.latchCoherent = true

theorem State.inv_iff (s : State) : s.inv = true ↔ s.Inv := by
  simp only [State.inv, Bool.and_eq_true, List.all_eq_true, decide_eq_true_eq]
  constructor
  · rintro ⟨⟨⟨⟨⟨mem, params⟩, depth⟩, returns⟩, pc⟩, latch⟩
    exact ⟨mem, params, depth, returns, pc, latch⟩
  · rintro ⟨mem, params, depth, returns, pc, latch⟩
    exact ⟨⟨⟨⟨⟨mem, params⟩, depth⟩, returns⟩, pc⟩, latch⟩

theorem isReturnAddress_iff (a : Word) : isReturnAddress a = true ↔ 2 ≤ a.toNat ∧ a.toNat ≤ 4096 := by
  rw [isReturnAddress, Bool.and_eq_true, decide_eq_true_eq, decide_eq_true_eq]

theorem State.stackWithinDepth_iff (s : State) :
    s.stackWithinDepth = true ↔ ∀ d, s.params.stackDepth = some d → s.stack.length ≤ d := by
  unfold State.stackWithinDepth
  cases s.params.stackDepth with
  | none => simp
  | some d => simp

theorem State.latchCoherent_of_no_fault {s : State} (h : s.fault = none) : s.latchCoherent = true := by
  rw [State.latchCoherent, h]

/-- Whether a record fits a state depends on `pc`, `I`, the stack and the parameters only. -/
theorem FaultRecord.coherent_congr {s t : State} (hpc : t.pc = s.pc) (hi : t.i = s.i) (hstack : t.stack = s.stack)
    (hparams : t.params = s.params) (f : FaultRecord) : f.coherent t = f.coherent s := by
  cases f <;> simp only [FaultRecord.coherent, hpc, hi, hstack, hparams]

/-- A record that fits the state may be latched. -/
theorem State.Inv.raise {s : State} (h : s.Inv) {f : FaultRecord} (hf : f.coherent s = true) : (s.raise f).Inv :=
  { h with latch := (FaultRecord.coherent_congr rfl rfl rfl rfl f).trans hf }

/-- The invariant does not look at the general registers, the timers, the framebuffer, the key cell, the count of draws
or, beyond its canonical form, memory. -/
theorem State.Inv.congr {s t : State} (h : s.Inv) (hmem : t.mem.wf = true) (hpc : t.pc = s.pc) (hi : t.i = s.i)
    (hstack : t.stack = s.stack) (hparams : t.params = s.params) (hfault : t.fault = s.fault) : t.Inv where
  mem := hmem
  params := by rw [hparams]; exact h.params
  depth := by rw [State.stackWithinDepth, hparams, hstack]; exact h.depth
  returns := by rw [hstack]; exact h.returns
  pc := by rw [hpc]; exact h.pc
  latch := by
    simp only [State.latchCoherent, hfault, FaultRecord.coherent_congr hpc hi hstack hparams]
    exact h.latch

/-! ### The execute phase

It starts with `pc = ipc + 2` for an `ipc` at most 4094, which is what makes `pc` a return address. -/

/-- `ipc + 2` of an `ipc` at most 4094, seen from the execute phase. -/
theorem ipc_of_isReturnAddress {a : Word} (h : isReturnAddress a = true) : a = a - 2 + 2 ∧ (a - 2).toNat ≤ 4094 := by
  rw [isReturnAddress_iff] at h
  exact ⟨(BitVec.sub_add_cancel a 2).symm, by bv_omega⟩

/-- The fault that rule R250's table gives an instruction fits the state. -/
theorem coherent_of_faultOf {s : State} (hpc : isReturnAddress s.pc = true) {i : Instr} {f : FaultRecord}
    (h : faultOf s i = some f) : f.coherent s = true := by
  obtain ⟨hnext, hle⟩ := ipc_of_isReturnAddress hpc
  cases i with
  | ret =>
    simp only [faultOf, Option.ite_none_right_eq_some, Option.some.injEq] at h
    obtain ⟨hs, rfl⟩ := h
    simp only [FaultRecord.coherent, Bool.and_eq_true, decide_eq_true_eq, List.isEmpty_iff]
    exact ⟨⟨hnext, hle⟩, hs⟩
  | call nnn =>
    simp only [faultOf, Option.ite_none_right_eq_some, Option.some.injEq] at h
    obtain ⟨hs, rfl⟩ := h
    simp only [FaultRecord.coherent, Bool.and_eq_true, decide_eq_true_eq]
    exact ⟨⟨hnext, hle⟩, hs⟩
  | drw _ _ _ | ldBVx _ | ldMemVx _ | ldVxMem _ =>
    obtain ⟨a, rfl, ha⟩ := memFaultOf_eq_some h
    exact decide_eq_true ha
  | _ => cases h

/-- Popping nothing but return addresses, `00EE` goes to 4096 at most. -/
theorem getLastD_toNat_le {l : List Word} (h : ∀ a ∈ l, isReturnAddress a = true) : (l.getLastD 0).toNat ≤ 4096 := by
  rw [List.getLastD_eq_getLast?]
  cases hl : l.getLast? with
  | none => decide
  | some a => exact ((isReturnAddress_iff a).1 (h a (List.mem_of_getLast? hl))).2

/-- No instruction leaves `pc` above 0x10FE: `Bnnn` adds at most 255 to at most 4095, every other instruction stays at
or below 4098 (rule R34). -/
theorem pcAfter_le {s : State} {ipc : Word} (hipc : ipc.toNat ≤ 4094) (hs : ∀ a ∈ s.stack, isReturnAddress a = true)
    (i : Instr) : (pcAfter ipc s i).toNat ≤ 0x10FE := by
  have two : (ipc + 2).toNat ≤ 0x10FE := by bv_omega
  have four : (ipc + 4).toNat ≤ 0x10FE := by bv_omega
  cases i with
  | jp nnn | call nnn =>
    have := nnn.isLt
    simp only [pcAfter, BitVec.toNat_setWidth]
    omega
  | ret => exact (getLastD_toNat_le hs).trans (by decide)
  | jpV0 nnn =>
    have := nnn.isLt
    have := (s.getV 0).isLt
    simp only [pcAfter, BitVec.toNat_add, BitVec.toNat_setWidth]
    omega
  | seVxNn _ _ | sneVxNn _ _ | seVxVy _ _ | sneVxVy _ _ =>
    simp only [pcAfter]
    split
    · assumption
    · assumption
  | ldVxK _ =>
    simp only [pcAfter]
    split
    · omega
    · exact two
  | _ => exact two

/-- The stack holds return addresses only: what `2nnn` pushes is one. -/
theorem returns_stackAfter {s : State} (hpc : isReturnAddress s.pc = true)
    (hs : ∀ a ∈ s.stack, isReturnAddress a = true) (i : Instr) : ∀ a ∈ stackAfter s i, isReturnAddress a = true := by
  cases i with
  | ret => exact fun a ha => hs a (List.mem_of_mem_dropLast ha)
  | call nnn =>
    intro a ha
    rcases List.mem_append.1 ha with ha | ha
    · exact hs a ha
    · rwa [List.mem_singleton.1 ha]
  | _ => exact hs

/-- The stack stays within its depth: `2nnn` pushes only where the stack is not full. -/
theorem length_stackAfter_le {s : State} {i : Instr} (hf : faultOf s i = none) {d : Nat}
    (hd : s.params.stackDepth = some d) (hs : s.stack.length ≤ d) : (stackAfter s i).length ≤ d := by
  cases i with
  | ret =>
    simp only [stackAfter, List.length_dropLast]
    omega
  | call nnn =>
    have hne : d ≠ s.stack.length := fun e => by simp [faultOf, hd, e] at hf
    simp only [stackAfter, List.length_append, List.length_singleton]
    omega
  | _ => exact hs

/-- An instruction that completes keeps the invariant. -/
theorem Completes.inv {i : Instr} {s t : State} (c : Completes i s t) (h : s.Inv) (hf : s.fault = none)
    (hpc : isReturnAddress s.pc = true) (hi : faultOf s i = none) : t.Inv where
  mem := c.mem h.mem
  params := by rw [c.params]; exact h.params
  depth := by
    rw [State.stackWithinDepth_iff, c.params, c.stack]
    exact fun d hd => length_stackAfter_le hi hd (s.stackWithinDepth_iff.1 h.depth d hd)
  returns := by rw [c.stack]; exact returns_stackAfter hpc h.returns i
  pc := by rw [c.pc]; exact pcAfter_le (ipc_of_isReturnAddress hpc).2 h.returns i
  latch := State.latchCoherent_of_no_fault (c.fault.trans hf)

/-- Every execute phase keeps the invariant. -/
theorem exec_keeps_inv {i : Instr} {s t : State} (h : s.Inv) (hf : s.fault = none) (hpc : isReturnAddress s.pc = true)
    (he : exec i s = .next t) : t.Inv := by
  cases hi : faultOf s i with
  | some f =>
    rw [exec_of_faultOf_eq_some hi] at he
    injection he with he
    exact he ▸ h.raise (coherent_of_faultOf hpc hi)
  | none =>
    obtain ⟨u, hu, c⟩ := exec_of_faultOf_eq_none hi
    rw [hu] at he
    injection he with he
    exact he ▸ c.inv h hf hpc hi

/-! ### The step -/

/-- A fetch inside memory keeps the invariant and makes `pc` a return address. -/
theorem State.Inv.fetched {s : State} (h : s.Inv) (hf : s.fault = none) (hpc : s.pc.toNat ≤ 4094) :
    (s.setPc (s.pc + 2)).Inv ∧ isReturnAddress (s.pc + 2) = true := by
  have hr : isReturnAddress (s.pc + 2) = true := by rw [isReturnAddress_iff]; bv_omega
  refine ⟨{ h with pc := ?_, latch := State.latchCoherent_of_no_fault hf }, hr⟩
  exact ((isReturnAddress_iff _).1 hr).2.trans (by decide)

/-- Every step keeps the invariant. -/
theorem step_keeps_inv {s t : State} (h : s.Inv) (hs : step s = .next t) : t.Inv := by
  cases hf : s.fault with
  | some f =>
    rw [step_of_fault hf] at hs
    injection hs with hs
    exact hs ▸ h
  | none =>
    by_cases hpc : 4095 ≤ s.pc.toNat
    · rw [step_of_pc_ge hf hpc] at hs
      injection hs with hs
      exact hs ▸ h.raise (by simp [FaultRecord.coherent, hpc])
    · have hle : s.pc.toNat ≤ 4094 := by omega
      obtain ⟨hfetched, hr⟩ := h.fetched hf hle
      cases hd : decodeWord (s.wordAt s.pc.toNat) with
      | ok i =>
        rw [step_of_decode_ok hf hle hd] at hs
        exact exec_keeps_inv hfetched hf hr hs
      | error e =>
        rw [step_of_decode_error hf hle hd] at hs
        injection hs with hs
        exact hs ▸ hfetched.raise (by simp [FaultRecord.coherent, hle, hd, Except.toOption])

/-! ### The other ports -/

/-- Reset under legal parameters meets the invariant. -/
theorem State.resetWith_inv {p : Params} (hp : p.wellFormed = true) (draws : Nat) : (State.resetWith p draws).Inv where
  mem := rfl
  params := hp
  depth := (State.stackWithinDepth_iff _).2 fun d _ => Nat.zero_le d
  returns := fun _ ha => absurd ha List.not_mem_nil
  pc := show (0x200 : Word).toNat ≤ 0x10FE by decide
  latch := rfl

/-- Storing bytes at any address keeps the invariant. -/
theorem State.Inv.memWriteList {s : State} (h : s.Inv) (a : Nat) (l : List Byte) : (s.memWriteList a l).Inv :=
  h.congr (State.memWriteList_wf l h.mem a) (by simp) (by simp) (by simp) (by simp) (by simp)

/-- A tick keeps the invariant. -/
theorem State.Inv.timerTick {s : State} (h : s.Inv) : (timerTick s).Inv := by
  cases hf : s.fault with
  | some f =>
    rw [Machine.timerTick, hf]
    exact h
  | none =>
    rw [timerTick_of_no_fault hf]
    exact h.congr h.mem rfl rfl rfl rfl rfl

/-- An event at any of the six ports keeps the invariant. -/
theorem Session.apply_keeps_inv {e : Event} {z z' : Session} (h : z.core.Inv) (he : z.apply e = .next z') :
    z'.core.Inv := by
  cases e with
  | reset =>
    injection he with he
    exact he ▸ State.resetWith_inv h.params _
  | load image =>
    rw [(Session.apply_load_eq_next he).2]
    exact h.memWriteList 0 image
  | step => exact step_keeps_inv h (Session.apply_step_eq_next he).1
  | tick =>
    injection he with he
    exact he ▸ h.timerTick
  | key k =>
    injection he with he
    exact he ▸ h.congr h.mem rfl rfl rfl rfl rfl
  | observe =>
    injection he with he
    exact he ▸ h

/-- Under every interleaving of the agents the invariant holds along the run (rules R92 and R263). -/
theorem Session.applyAll_keeps_inv (es : List Event) : ∀ {z z' : Session}, z.core.Inv →
    Session.applyAll es z = .next z' → z'.core.Inv := by
  induction es with
  | nil =>
    intro z z' h he
    injection he with he
    exact he ▸ h
  | cons e rest ih =>
    intro z z' h he
    rw [Session.applyAll] at he
    split at he
    · next z₁ h₁ => exact ih (Session.apply_keeps_inv h h₁) he
    · cases he
    · cases he

/-- Settles O17: each port writes only what the invariant leaves free, resets, or steps; the step goes through the
tables of rules R33 and R250. -/
theorem everyEventKeepsTheInvariant : Obligations.EveryEventKeepsTheInvariant := by
  intro e z z' h he
  rw [State.inv_iff] at h ⊢
  exact Session.apply_keeps_inv h he

end Sys2Proof.Machine

/-! PROOFS. What steps, ticks and the other ports leave of the state of spec/10_state.md: the invariant, `pc`, the parts
that only their writers change, and the key cell. -/

namespace Sys2Proof.Machine

/-- An execute phase has only one answer: what is known of some answer holds of the one at hand. -/
theorem of_exec_eq_next {i : Instr} {s t : State} {P : State → Prop} (he : exec i s = .next t)
    (h : ∃ u, exec i s = .next u ∧ P u) : P t := by
  obtain ⟨u, hu, hP⟩ := h
  rw [he] at hu
  injection hu with hu
  exact hu ▸ hP

/-! ### The invariant and `pc` -/

/-- Settles O16, by the four ways a step can go. -/
theorem everyStepKeepsTheInvariant : Obligations.EveryStepKeepsTheInvariant := by
  intro s t h hs
  rw [State.inv_iff] at h ⊢
  exact step_keeps_inv h hs

/-- An execute phase that leaves the latch clear completes. -/
theorem completes_of_no_fault {i : Instr} {s t : State} (he : exec i s = .next t) (ht : t.fault = none) :
    Completes i s t := by
  cases hi : faultOf s i with
  | some f =>
    have hraise := of_exec_eq_next (P := (· = s.raise f)) he ⟨_, exec_of_faultOf_eq_some hi, rfl⟩
    rw [hraise, State.raise_fault] at ht
    cases ht
  | none => exact of_exec_eq_next he (exec_of_faultOf_eq_none hi)

/-- `Bnnn` leaves at most 0x10FE from every state: neither `ipc` nor the stack enters its target (rule R147). -/
theorem pcAfter_jpV0_le (ipc : Word) (s : State) (nnn : BitVec 12) : (pcAfter ipc s (.jpV0 nnn)).toNat ≤ 0x10FE :=
  pcAfter_le (s := s.setStack []) (ipc := 0) (by decide) (fun _ ha => absurd ha List.not_mem_nil) (.jpV0 nnn)

/-- Settles O20: an instruction that does not fault completes, and the tables `pcAfter` and `stackAfter` say the rest. -/
theorem pcAfterEachInstruction : Obligations.PcAfterEachInstruction := by
  intro i ipc s t hipc _ he ht
  have c := completes_of_no_fault he ht
  have hpc : t.pc = pcAfter ipc s i := by rw [c.pc, hipc, BitVec.add_sub_cancel]
  refine ⟨hpc, ?_, ?_⟩
  · rintro nnn rfl
    rw [c.stack, stackAfter, hipc]
  · rintro nnn rfl
    rw [hpc]
    exact pcAfter_jpV0_le ipc s nnn

/-! ### The parts of the state that only their writers change (rules R35 to R41) -/

/-- From `s` to `t` only those of these parts differ that `i` is a writer of. A field need not be given where `t` has the
part of `s` by definition. -/
structure ChangesOnlyWritten (i : Instr) (s t : State) : Prop where
  fb : i ≠ .cls → (∀ x y n, i ≠ .drw x y n) → t.fb = s.fb := by intros; rfl
  stack : i ≠ .ret → (∀ nnn, i ≠ .call nnn) → t.stack = s.stack := by intros; rfl
  index : (∀ nnn, i ≠ .ldINnn nnn) → (∀ x, i ≠ .addIVx x) → (∀ x, i ≠ .ldFVx x) → t.i = s.i := by intros; rfl
  dt : (∀ x, i ≠ .ldDtVx x) → t.dt = s.dt := by intros; rfl
  st : (∀ x, i ≠ .ldStVx x) → t.st = s.st := by intros; rfl
  key : t.key = s.key := by rfl
  params : t.params = s.params := by rfl

/-- Storing bytes changes none of these parts. -/
theorem changesOnlyWritten_memWriteList (i : Instr) (s : State) (a : Nat) (l : List Byte) :
    ChangesOnlyWritten i s (s.memWriteList a l) where
  fb _ _ := State.memWriteList_fb ..
  stack _ _ := State.memWriteList_stack ..
  index _ _ _ := State.memWriteList_i ..
  dt _ := State.memWriteList_dt ..
  st _ := State.memWriteList_st ..
  key := State.memWriteList_key ..
  params := State.memWriteList_params ..

/-- An instruction that completes: the nine writers write one part each, every other instruction writes none. -/
theorem changesOnlyWritten_of_faultOf_eq_none {i : Instr} {s : State} (h : faultOf s i = none) :
    ∃ t, exec i s = .next t ∧ ChangesOnlyWritten i s t := by
  cases i with
  | cls => exact ⟨_, rfl, { fb := fun hw => absurd rfl hw }⟩
  | drw x y n =>
    exact ⟨_, congrArg Host.Outcome.next (State.withBlock_of_no_memFault h _), { fb := fun _ hw => absurd rfl (hw x y n) }⟩
  | ret =>
    have hs : s.stack ≠ [] := fun hs => by simp [faultOf, hs] at h
    exact ⟨_, execRet_of_ne_nil hs, { stack := fun hw => absurd rfl hw }⟩
  | call nnn =>
    have hs : s.params.stackDepth ≠ some s.stack.length := fun hs => by simp [faultOf, hs] at h
    exact ⟨_, execCall_of_not_full nnn hs, { stack := fun _ hw => absurd rfl (hw nnn) }⟩
  | ldINnn nnn => exact ⟨_, rfl, { index := fun hw => absurd rfl (hw nnn) }⟩
  | addIVx x => exact ⟨_, rfl, { index := fun _ hw => absurd rfl (hw x) }⟩
  | ldFVx x => exact ⟨_, rfl, { index := fun _ _ hw => absurd rfl (hw x) }⟩
  | ldDtVx x => exact ⟨_, rfl, { dt := fun hw => absurd rfl (hw x) }⟩
  | ldStVx x => exact ⟨_, rfl, { st := fun hw => absurd rfl (hw x) }⟩
  | seVxNn _ _ | sneVxNn _ _ | seVxVy _ _ | sneVxVy _ _ => exact ⟨_, congrArg Host.Outcome.next (State.skipIf_eq ..), {}⟩
  | shr _ _ | shl _ _ => exact ⟨_, congrArg Host.Outcome.next (State.shift_eq ..), {}⟩
  | ldVxK _ =>
    refine ⟨_, rfl, ?_⟩
    cases s.key with
    | none => exact {}
    | some _ => exact {}
  | ldBVx _ | ldMemVx _ =>
    exact ⟨_, congrArg Host.Outcome.next (State.withBlock_of_no_memFault h _), changesOnlyWritten_memWriteList ..⟩
  | ldVxMem _ =>
    exact ⟨_, congrArg Host.Outcome.next ((State.withBlock_of_no_memFault h _).trans (State.loadRegs_eq ..)), {}⟩
  | _ => exact ⟨_, rfl, {}⟩

/-- Every execute phase changes only what its instruction is a writer of: one that faults writes the latch alone. -/
theorem exec_changesOnlyWritten (i : Instr) (s : State) : ∃ t, exec i s = .next t ∧ ChangesOnlyWritten i s t := by
  cases hf : faultOf s i with
  | some f => exact ⟨_, exec_of_faultOf_eq_some hf, {}⟩
  | none => exact changesOnlyWritten_of_faultOf_eq_none hf

/-- Settles O25: a fault writes the latch alone, and an instruction that completes writes its own parts alone. -/
theorem stateChangesOnlyByItsWriters : Obligations.StateChangesOnlyByItsWriters := by
  intro i s t he
  obtain ⟨fb, stack, index, dt, st, key, params⟩ := of_exec_eq_next he (exec_changesOnlyWritten i s)
  exact ⟨fb, stack, index, dt, st, key, params⟩

/-! ### Operations that do not look at the key cell (rule R40)

With another value in it each does the same. -/

section SetKey
variable (s : State) (k : Option Key)

theorem State.skipIf_setKey (c : Bool) : (s.setKey k).skipIf c = (s.skipIf c).setKey k := by
  rw [State.skipIf_eq, State.skipIf_eq]
  rfl

theorem State.shift_setKey (x y : Reg) (flag shift : Byte → Byte) :
    ((s.setKey k).shiftSource x y).shiftAfterFlag x flag shift
      = ((s.shiftSource x y).shiftAfterFlag x flag shift).setKey k := by
  unfold State.shiftSource
  rw [State.setKey_params]
  cases s.params.shiftSrc with
  | vy => rfl
  | vx => rfl

theorem State.memWrite_setKey (a : Nat) (b : Byte) : (s.setKey k).memWrite a b = (s.memWrite a b).setKey k := by
  unfold State.memWrite
  split
  · rfl
  · rfl

theorem State.memWriteList_setKey (l : List Byte) : ∀ (s : State) (a : Nat),
    (s.setKey k).memWriteList a l = (s.memWriteList a l).setKey k := by
  induction l with
  | nil => exact fun _ _ => rfl
  | cons b rest ih => exact fun s a => by rw [State.memWriteList, State.memWrite_setKey, ih, State.memWriteList]

theorem State.loadRegs_setKey (l : List Reg) : ∀ s : State, (s.setKey k).loadRegs l = (s.loadRegs l).setKey k := by
  induction l with
  | nil => exact fun _ => rfl
  | cons r rest ih => exact fun s => ih (s.setV r (s.memRead (s.i.toNat + r.val)))

/-- A checked block access does the same when its action does: the check reads `I` alone. -/
theorem State.withBlock_setKey {act : State → State} (h : act (s.setKey k) = (act s).setKey k) (n : Nat) :
    (s.setKey k).withBlock n act = (s.withBlock n act).setKey k := by
  have hm : memFaultOf (s.setKey k) n = memFaultOf s n := rfl
  rw [State.withBlock_eq, State.withBlock_eq, hm]
  cases memFaultOf s n with
  | none => exact h
  | some _ => rfl

theorem execRet_setKey : ∃ t, execRet s = .next t ∧ execRet (s.setKey k) = .next (t.setKey k) := by
  by_cases h : s.stack = []
  · exact ⟨_, execRet_of_nil h, execRet_of_nil (s := s.setKey k) h⟩
  · exact ⟨_, execRet_of_ne_nil h, execRet_of_ne_nil (s := s.setKey k) h⟩

theorem execCall_setKey (nnn : BitVec 12) :
    ∃ t, execCall nnn s = .next t ∧ execCall nnn (s.setKey k) = .next (t.setKey k) := by
  by_cases h : s.params.stackDepth = some s.stack.length
  · exact ⟨_, execCall_of_full nnn h, execCall_of_full (s := s.setKey k) nnn h⟩
  · exact ⟨_, execCall_of_not_full nnn h, execCall_of_not_full (s := s.setKey k) nnn h⟩

/-- An instruction other than `Fx0A` does the same whatever the key cell holds. -/
theorem exec_setKey {i : Instr} (hi : ∀ x, i ≠ .ldVxK x) :
    ∃ t, exec i s = .next t ∧ exec i (s.setKey k) = .next (t.setKey k) := by
  cases i with
  | ldVxK x => exact absurd rfl (hi x)
  | ret => exact execRet_setKey s k
  | call nnn => exact execCall_setKey s k nnn
  | seVxNn _ _ | sneVxNn _ _ | seVxVy _ _ | sneVxVy _ _ =>
    exact ⟨_, rfl, congrArg Host.Outcome.next (s.skipIf_setKey k _)⟩
  | shr _ _ | shl _ _ => exact ⟨_, rfl, congrArg Host.Outcome.next (s.shift_setKey k ..)⟩
  | drw _ _ _ => exact ⟨_, rfl, congrArg Host.Outcome.next (s.withBlock_setKey k rfl _)⟩
  | ldBVx _ | ldMemVx _ =>
    exact ⟨_, rfl, congrArg Host.Outcome.next (s.withBlock_setKey k (State.memWriteList_setKey k _ s _) _)⟩
  | ldVxMem _ => exact ⟨_, rfl, congrArg Host.Outcome.next (s.withBlock_setKey k (State.loadRegs_setKey k _ s) _)⟩
  | _ => exact ⟨_, rfl, rfl⟩

end SetKey

/-- Settles O26: no operation but the key wait looks at the key cell. -/
theorem keyIsReadOnlyByKeyWait : Obligations.KeyIsReadOnlyByKeyWait := by
  intro i s t k hi he
  exact of_exec_eq_next he (exec_setKey s k hi)

/-! ### The tick, the key port and the reset port -/

theorem countDown_iterate_toNat (n : Nat) (b : Byte) : (countDown^[n] b).toNat = b.toNat - n := by
  induction n with
  | zero => rfl
  | succ n ih =>
    rw [Function.iterate_succ_apply', countDown_toNat, ih]
    omega

/-- Ticks on a core without a latched fault count down both timers and do nothing else, so the latch stays clear. -/
theorem timerTick_iterate {s : State} (h : s.fault = none) (n : Nat) :
    timerTick^[n] s = (s.setDt (countDown^[n] s.dt)).setSt (countDown^[n] s.st) := by
  induction n with
  | zero => rfl
  | succ n ih =>
    have hn : (timerTick^[n] s).fault = none := by rw [ih]; exact h
    simp only [Function.iterate_succ_apply', timerTick_of_no_fault hn]
    rw [ih]
    rfl

/-- Settles O55, by induction on the number of ticks. -/
theorem ticksCountBothTimersDown : Obligations.TicksCountBothTimersDown := by
  intro n s h
  rw [timerTick_iterate h]
  exact ⟨countDown_iterate_toNat n s.dt, countDown_iterate_toNat n s.st, rfl⟩

/-- Settles O58: `setKey` writes the key cell alone, and `resetPort` is reset with the parameters and the draws kept. -/
theorem keyAndResetPorts : Obligations.KeyAndResetPorts :=
  fun k z => ⟨z.apply_key k, z.apply_reset⟩

end Sys2Proof.Machine

/-! PROOFS. Memory (spec/20_memory.md): one byte written and read back, the word a fetch reads, the bytes that `Fx33` and
`Fx55` store and `Fx65` loads, and that no other instruction stores. -/

namespace Sys2Proof.Machine

/-! ### One byte -/

/-- `MemWrite` changes memory and nothing else. -/
theorem State.memWrite_eq (s : State) (a : Nat) (v : Byte) : s.memWrite a v = { s with mem := (s.memWrite a v).mem } := by
  unfold State.memWrite
  split
  · rfl
  · rfl

/-- Settles O18: each clause is a law of `State.memWrite`. -/
theorem readAfterWriteGivesTheByteWritten : Obligations.ReadAfterWriteGivesTheByteWritten := by
  intro s a v h ha
  exact ⟨State.memRead_memWrite_same h ha v, fun b hb => s.memRead_memWrite_ne hb v, State.memWrite_wf h a v,
    s.memWrite_eq a v⟩

/-! ### The word a fetch reads -/

/-- A fetch inside memory reads the two bytes at `pc`, the first one high (rules R83 and R87). -/
theorem State.fetch_setPc (s : State) {p : Word} (h : p.toNat ≤ 4094) :
    (s.setPc p).fetch = .ok (s.memRead p.toNat ++ s.memRead (p.toNat + 1), s.setPc (p + 2)) :=
  (s.setPc p).fetch_of_le h

/-- A word decodes to what its two bytes decode to. -/
theorem decodeWord_of_decodeBytes {hi lo : Byte} {i : Instr} {rest : List Byte}
    (h : decodeBytes [hi, lo] = .ok (i, rest)) : decodeWord (wordOfBytes hi lo) = .ok i := by
  rw [decodeBytes] at h
  cases hd : decodeWord (wordOfBytes hi lo) with
  | error e => rw [hd] at h; cases h
  | ok j => rw [hd] at h; cases h; rfl

/-- Settles O7: the word that the step fetches is made of the two bytes. -/
theorem stepRunsTheDecodedInstruction : Obligations.StepRunsTheDecodedInstruction := by
  intro s i hf hpc hd
  exact step_of_decode_ok hf hpc (decodeWord_of_decodeBytes hd)

/-! ### The register block and the digits -/

theorem exec_ldMemVx_of_inMemory {s : State} {x : Reg} (h : InMemory s (x.val + 1)) :
    exec (.ldMemVx x) s = .next (s.memWriteList s.i.toNat ((blockRegs x).map s.getV)) :=
  congrArg Host.Outcome.next (s.withBlock_of_inside (.inr h) _)

theorem exec_ldBVx_of_inMemory {s : State} (x : Reg) (h : InMemory s 3) :
    exec (.ldBVx x) s = .next (s.memWriteList s.i.toNat (bcdDigits (s.getV x))) :=
  congrArg Host.Outcome.next (s.withBlock_of_inside (.inr h) _)

theorem exec_ldVxMem_of_inMemory {s : State} {x : Reg} (h : InMemory s (x.val + 1)) :
    exec (.ldVxMem x) s = .next (s.loadRegs (blockRegs x)) :=
  congrArg Host.Outcome.next (s.withBlock_of_inside (.inr h) _)

theorem length_storedBlock (s : State) (x : Reg) : ((blockRegs x).map s.getV).length = x.val + 1 := by
  rw [List.length_map, blockRegs_length]

/-- Every byte after `Fx55` has stored its block (rule R194). -/
theorem memRead_memWriteList_block {s : State} {x : Reg} (h : s.mem.wf = true) (hm : InMemory s (x.val + 1)) (a : Nat) :
    (s.memWriteList s.i.toNat ((blockRegs x).map s.getV)).memRead a = byteAfterBlock s x a := by
  unfold byteAfterBlock
  split
  · next ha =>
    have hx := x.isLt
    have hr : (Fin.ofNat 16 (a - s.i.toNat)).val = a - s.i.toNat := Nat.mod_eq_of_lt (by omega)
    have hle : Fin.ofNat 16 (a - s.i.toNat) ≤ x := by rw [Fin.le_def, hr]; omega
    rw [← State.memRead_storedBlock h s.i.toNat x _ hle hm, hr, Nat.add_sub_cancel' ha.1]
  · next ha =>
    exact State.memRead_memWriteList_outside _ _ _ (by rw [length_storedBlock]; omega)

/-- Every byte after `Fx33` has stored its three digits (rule R193). -/
theorem memRead_memWriteList_digits {s : State} (x : Reg) (h : s.mem.wf = true) (hm : InMemory s 3) (a : Nat) :
    (s.memWriteList s.i.toNat (bcdDigits (s.getV x))).memRead a = byteAfterDigits s x a := by
  have hlen : (bcdDigits (s.getV x)).length = 3 := rfl
  have inside (k : Nat) (hk : k < 3) := State.memRead_memWriteList_inside (bcdDigits (s.getV x)) h s.i.toNat k hk hm
  unfold byteAfterDigits
  split
  · next ha => rw [ha]; exact inside 0 (by decide)
  split
  · next ha => rw [ha]; exact inside 1 (by decide)
  split
  · next ha => rw [ha]; exact inside 2 (by decide)
  · exact State.memRead_memWriteList_outside _ _ _ (by omega)

/-- Settles O19: a fetch reads memory as it stands, and the two lemmas above say how each store left it. -/
theorem storeIsSeenByTheNextFetch : Obligations.StoreIsSeenByTheNextFetch := by
  intro s x p h hp
  refine ⟨fun hm => ⟨_, exec_ldMemVx_of_inMemory hm, ?_⟩, fun hm => ⟨_, exec_ldBVx_of_inMemory x hm, ?_⟩⟩
  · rw [State.fetch_setPc _ hp, memRead_memWriteList_block h hm, memRead_memWriteList_block h hm]
  · rw [State.fetch_setPc _ hp, memRead_memWriteList_digits x h hm, memRead_memWriteList_digits x h hm]

/-- Settles O47: `Fx65` loads each register of the block from the byte where `Fx55` put it. -/
theorem loadAfterStoreRestoresTheRegisters : Obligations.LoadAfterStoreRestoresTheRegisters := by
  intro x v' pc' s t u h hm ht hu r hr
  have stored : t = s.memWriteList s.i.toNat ((blockRegs x).map s.getV) :=
    Host.Outcome.next.inj (ht.symm.trans (exec_ldMemVx_of_inMemory hm))
  have hi : t.i = s.i := by rw [stored, State.memWriteList_i]
  have loaded : u = State.loadRegs { t with v := v', pc := pc' } (blockRegs x) :=
    Host.Outcome.next.inj (hu.symm.trans (exec_ldVxMem_of_inMemory (by rw [InMemory, hi]; exact hm)))
  calc u.getV r
      = t.memRead (t.i.toNat + r.val) := by
        rw [loaded, State.getV_loadRegs, if_pos ((mem_blockRegs x r).2 hr)]
        rfl
    _ = s.getV r := by rw [hi, stored, State.memRead_storedBlock h _ x r hr hm]

/-! ### Only `Fx33` and `Fx55` store (rules R88 and R89) -/

/-- An instruction that completes: two write the bytes they store, every other one leaves memory as it was. -/
theorem sameBytesOutside_of_faultOf_eq_none {i : Instr} {s : State} (h : faultOf s i = none) :
    ∃ t, exec i s = .next t ∧ SameBytesOutside s.i.toNat (storeSize i) s t := by
  cases i with
  | ldBVx x =>
    exact ⟨_, congrArg Host.Outcome.next (State.withBlock_of_no_memFault h _),
      fun _ hb => State.memRead_memWriteList_outside _ _ _ hb⟩
  | ldMemVx x =>
    exact ⟨_, congrArg Host.Outcome.next (State.withBlock_of_no_memFault h _),
      fun _ hb => State.memRead_memWriteList_outside _ _ _ (by rwa [length_storedBlock])⟩
  | ldVxMem x =>
    exact ⟨_, congrArg Host.Outcome.next (State.withBlock_of_no_memFault h _),
      fun _ _ => State.memRead_loadRegs ..⟩
  | drw x y n =>
    exact ⟨_, congrArg Host.Outcome.next (State.withBlock_of_no_memFault h _), fun _ _ => rfl⟩
  | ret =>
    have hs : s.stack ≠ [] := fun hs => by simp [faultOf, hs] at h
    exact ⟨_, execRet_of_ne_nil hs, fun _ _ => rfl⟩
  | call nnn =>
    have hs : s.params.stackDepth ≠ some s.stack.length := fun hs => by simp [faultOf, hs] at h
    exact ⟨_, execCall_of_not_full nnn hs, fun _ _ => rfl⟩
  | seVxNn _ _ | sneVxNn _ _ | seVxVy _ _ | sneVxVy _ _ =>
    exact ⟨_, congrArg Host.Outcome.next (State.skipIf_eq ..), fun _ _ => rfl⟩
  | shr _ _ | shl _ _ =>
    exact ⟨_, congrArg Host.Outcome.next (State.shift_eq ..), fun _ _ => rfl⟩
  | ldVxK _ =>
    refine ⟨_, rfl, ?_⟩
    cases s.key with
    | none => exact fun _ _ => rfl
    | some _ => exact fun _ _ => rfl
  | _ => exact ⟨_, rfl, fun _ _ => rfl⟩

/-- Settles O24: a fault leaves memory as it was, and an instruction that completes writes the bytes it stores alone. -/
theorem memoryChangesOnlyByStores : Obligations.MemoryChangesOnlyByStores := by
  intro i s t he
  refine of_exec_eq_next he ?_
  cases hf : faultOf s i with
  | some f => exact ⟨_, exec_of_faultOf_eq_some hf, fun _ _ => rfl⟩
  | none => exact sameBytesOutside_of_faultOf_eq_none hf

end Sys2Proof.Machine

/-! PROOFS. Encoding (spec/30_encoding.md): the decoder and the encoder undo each other, the words that decode are those
of the opcode map, and what a step does on a word that does not. -/

namespace Sys2Proof

/-! ### Decoding the word of an instruction

The field laws once more, with the class and the discriminant computed from the row's match value, so that `simp` can
choose the decoder's branch. -/

theorem fields_wordNnn_base {base : Nat} (hb : base % 4096 = 0) (h : base < 65536) (nnn : BitVec 12) :
    classField (wordNnn base nnn) = base / 4096 ∧ nnnField (wordNnn base nnn) = nnn :=
  fields_wordNnn (by omega) (by omega) nnn

theorem fields_wordXNn_base {base : Nat} (hb : base % 4096 = 0) (h : base < 65536) (x : Reg) (nn : Byte) :
    classField (wordXNn base x nn) = base / 4096 ∧ xField (wordXNn base x nn) = x ∧ nnField (wordXNn base x nn) = nn :=
  fields_wordXNn (by omega) (by omega) x nn

theorem fields_wordXY_base {base : Nat} (hb : base % 4096 < 16) (h : base < 65536) (x y : Reg) :
    classField (wordXY base x y) = base / 4096 ∧ xField (wordXY base x y) = x ∧ yField (wordXY base x y) = y ∧
      nField (wordXY base x y) = Fin.ofNat 16 base :=
  fields_wordXY (by rw [Fin.val_ofNat]; omega) (by omega) x y

theorem fields_wordX_base {base : Nat} (hb : 0xF000 ≤ base) (h : base < 0xF100) (x : Reg) :
    classField (wordX base x) = 15 ∧ xField (wordX base x) = x ∧ nnField (wordX base x) = BitVec.ofNat 8 base :=
  fields_wordX (by rw [BitVec.toNat_ofNat]; omega) x

/-- The height of `Dxyn` stands where the other forms with `x` and `y` have the last digit of their match value. -/
theorem encode_drw (x y : Reg) (n : Fin 16) : encode (.drw x y n) = wordXY (0xD000 + n.val) x y :=
  congrArg (BitVec.ofNat 16) (by omega)

/-- The decoder undoes the encoder, form by form of the encoded word. -/
theorem decodeWord_encode (i : Instr) : decodeWord (encode i) = .ok i := by
  cases i with
  | cls | ret => rfl
  | jp _ | call _ | ldINnn _ | jpV0 _ =>
    simp (disch := decide) [encode, decodeWord, fields_wordNnn_base]
  | seVxNn _ _ | sneVxNn _ _ | ldVxNn _ _ | addVxNn _ _ | rnd _ _ =>
    simp (disch := decide) [encode, decodeWord, fields_wordXNn_base]
  | seVxVy _ _ | sneVxVy _ _ =>
    simp (disch := decide) [encode, decodeWord, fields_wordXY_base]
  | ldVxVy _ _ | or _ _ | and _ _ | xor _ _ | addVxVy _ _ | sub _ _ | shr _ _ | subn _ _ | shl _ _ =>
    simp (disch := decide) [encode, decodeWord, decodeClass8, fields_wordXY_base]
  | drw x y n =>
    obtain ⟨hc, hx, hy, hn⟩ := fields_wordXY (base := 0xD000 + n.val) (c := 0xD) rfl (by decide) x y
    simp only [encode_drw, decodeWord, hc, hx, hy, hn]
  | ldVxDt _ | ldVxK _ | ldDtVx _ | ldStVx _ | addIVx _ | ldFVx _ | ldBVx _ | ldMemVx _ | ldVxMem _ =>
    simp (disch := decide) [encode, decodeWord, decodeClassF, fields_wordX_base]

/-- Settles O1: the two bytes combine to the instruction's word again, and that word decodes to the instruction. -/
theorem decodeOfEncodeIsTheInstruction : Obligations.DecodeOfEncodeIsTheInstruction := by
  intro i rest
  show (decodeWord (wordOfBytes (bytesOfWord (encode i)).1 (bytesOfWord (encode i)).2)).map (fun j => (j, rest)) = _
  rw [wordOfBytes_bytesOfWord, decodeWord_encode]
  rfl

/-! ### A word put together again from its own fields -/

theorem classField_lt (w : Word) : classField w < 16 :=
  Nat.div_lt_of_lt_mul w.isLt

theorem toNat_nnField (w : Word) : (nnField w).toNat = 16 * (yField w).val + (nField w).val := by
  simp only [nnField, yField, nField, BitVec.toNat_ofNat, Fin.val_ofNat]
  omega

theorem toNat_nnnField (w : Word) : (nnnField w).toNat = 256 * (xField w).val + (nnField w).toNat := by
  simp only [nnnField, xField, nnField, BitVec.toNat_ofNat, Fin.val_ofNat]
  omega

theorem ofNat_class_nnn (w : Word) : BitVec.ofNat 16 (4096 * classField w + (nnnField w).toNat) = w := by
  rw [classField, nnnField, BitVec.toNat_ofNat, Nat.div_add_mod, BitVec.ofNat_toNat, BitVec.setWidth_eq]

section FromFields

variable {w : Word} {base : Nat}

theorem wordNnn_fields (h : base = 4096 * classField w) : wordNnn base (nnnField w) = w := by
  rw [wordNnn, h, ofNat_class_nnn]

theorem wordXNn_fields (h : base = 4096 * classField w) : wordXNn base (xField w) (nnField w) = w := by
  rw [wordXNn, h, Nat.add_assoc, ← toNat_nnnField, ofNat_class_nnn]

theorem wordX_fields (h : base = 4096 * classField w + (nnField w).toNat) : wordX base (xField w) = w :=
  (congrArg (BitVec.ofNat 16) (by omega)).trans (wordXNn_fields rfl)

theorem wordXY_fields (h : base = 4096 * classField w + (nField w).val) : wordXY base (xField w) (yField w) = w :=
  (congrArg (BitVec.ofNat 16) (by rw [toNat_nnField]; omega)).trans (wordXNn_fields rfl)

end FromFields

/-! ### Encoding what a word decodes to -/

theorem encode_of_decodeClass0 {w : Word} {i : Instr} (h : decodeClass0 w = .ok i) : encode i = w := by
  unfold decodeClass0 at h
  split at h
  case isTrue hw => cases h; exact hw.symm
  case isFalse =>
    split at h
    case isTrue hw => cases h; exact hw.symm
    case isFalse => cases h

theorem encode_of_decodeClass8 {w : Word} {i : Instr} (hc : classField w = 0x8) (h : decodeClass8 w = .ok i) :
    encode i = w := by
  unfold decodeClass8 at h
  split at h <;> cases h
  all_goals exact wordXY_fields (by omega)

theorem encode_of_decodeClassF {w : Word} {i : Instr} (hc : classField w = 0xF) (h : decodeClassF w = .ok i) :
    encode i = w := by
  unfold decodeClassF at h
  split at h <;> cases h
  all_goals exact wordX_fields (by omega)

/-- The encoder undoes the decoder, class by class: case `h_k` is the decoder's branch for class `k - 1`. -/
theorem encode_of_decodeWord {w : Word} {i : Instr} (h : decodeWord w = .ok i) : encode i = w := by
  unfold decodeWord at h
  split at h
  case h_1 => exact encode_of_decodeClass0 h
  case h_2 hc | h_3 hc | h_11 hc | h_12 hc => cases h; exact wordNnn_fields (by rw [hc])
  case h_4 hc | h_5 hc | h_7 hc | h_8 hc | h_13 hc => cases h; exact wordXNn_fields (by rw [hc])
  case h_6 hc | h_10 hc =>
    split at h
    case isTrue hn => cases h; exact wordXY_fields (by rw [hc, hn]; rfl)
    case isFalse => cases h
  case h_9 hc => exact encode_of_decodeClass8 hc h
  case h_14 hc => cases h; exact (encode_drw ..).trans (wordXY_fields (by rw [hc]))
  case h_15 => cases h
  case h_16 => exact encode_of_decodeClassF (by have := classField_lt w; grind) h

/-- Settles O2, by the decoder's branches. -/
theorem encodeOfDecodeIsTheWord : Obligations.EncodeOfDecodeIsTheWord :=
  fun _ _ => encode_of_decodeWord

/-! ### Which bits select an instruction (rule R114) -/

/-- The bits that select the instruction within class `c`: the class digit and the class's discriminant (rule R114). -/
def discriminantMask (c : Nat) : Word :=
  match c with
  | 0x0 => 0xFFFF
  | 0x5 | 0x8 | 0x9 => 0xF00F
  | 0xF => 0xF0FF
  | _ => 0xF000

theorem discriminantMask_and_F000 (c : Nat) : discriminantMask c &&& 0xF000#16 = 0xF000#16 := by
  unfold discriminantMask
  split <;> rfl

section SameBits

variable {w p : Word}

theorem classField_of_and {m : Word} (h : w &&& m = p &&& m) (hm : m &&& 0xF000#16 = 0xF000#16) :
    classField w = classField p := by
  have e := congrArg (fun v => (v &&& 0xF000#16).toNat) h
  simp only [BitVec.and_assoc, hm, toNat_and_F000] at e
  exact Nat.eq_of_mul_eq_mul_left (by decide) e

theorem nField_of_and (h : w &&& 0xF00F#16 = p &&& 0xF00F#16) : nField w = nField p := by
  have e := congrArg BitVec.toNat h
  rw [toNat_and_F00F, toNat_and_F00F] at e
  exact nField_eq (by rw [nField, Fin.val_ofNat]; omega)

theorem nnField_of_and (h : w &&& 0xF0FF#16 = p &&& 0xF0FF#16) : nnField w = nnField p := by
  have e := congrArg BitVec.toNat h
  rw [toNat_and_F0FF, toNat_and_F0FF] at e
  exact nnField_eq (by rw [nnField, BitVec.toNat_ofNat]; omega)

/-- Whether a word decodes is settled by its class and its discriminant: two words that agree there both decode or
both do not. Case `h_k` is the decoder's branch for class `k - 1`. -/
theorem isOk_decodeWord_congr (h : w &&& discriminantMask (classField p) = p &&& discriminantMask (classField p)) :
    (decodeWord w).isOk = (decodeWord p).isOk := by
  have hc := classField_of_and h (discriminantMask_and_F000 _)
  unfold decodeWord
  rw [hc]
  split
  case h_1 hp =>
    rw [hp] at h
    rw [(BitVec.and_allOnes.symm.trans h).trans BitVec.and_allOnes]
  case h_6 hp | h_10 hp =>
    rw [hp] at h
    rw [nField_of_and h]
    split <;> rfl
  case h_9 hp =>
    rw [hp] at h
    rw [decodeClass8, decodeClass8, nField_of_and h]
    split <;> rfl
  case h_16 =>
    have hp : classField p = 0xF := by have := classField_lt p; grind
    rw [hp] at h
    rw [decodeClassF, decodeClassF, nnField_of_and h]
    split <;> rfl
  all_goals rfl

end SameBits

theorem isOk_decodeWord_iff {w : Word} : (decodeWord w).isOk = true ↔ ∃ i, decodeWord w = .ok i := by
  cases decodeWord w with
  | ok i => exact ⟨fun _ => ⟨i, rfl⟩, fun _ => rfl⟩
  | error e => exact ⟨nofun, nofun⟩

end Sys2Proof

namespace Sys2Proof.Laws.OpcodeRow

/-- The laws of this namespace together, for every instruction. -/
theorem statement (i : Instr) : Statement i := by
  cases i
  exacts [cls, ret, jp _, call _, seVxNn _ _, sneVxNn _ _, seVxVy _ _, ldVxNn _ _, addVxNn _ _, ldVxVy _ _, or _ _,
    and _ _, xor _ _, addVxVy _ _, sub _ _, shr _ _, subn _ _, shl _ _, sneVxVy _ _, ldINnn _, jpV0 _, rnd _ _,
    drw _ _ _, ldVxDt _, ldVxK _, ldDtVx _, ldStVx _, addIVx _, ldFVx _, ldBVx _, ldMemVx _, ldVxMem _]

end Sys2Proof.Laws.OpcodeRow

namespace Sys2Proof

/-! ### The opcode map (rules R115 and R116) -/

/-- Each row masks exactly the bits that select the instruction in its class, its match value lies under that mask, and
the match value itself decodes. -/
theorem opcodeMap_rows : ∀ r ∈ opcodeMap, r.mask = discriminantMask (classField r.pattern) ∧
    r.pattern &&& r.mask = r.pattern ∧ (decodeWord r.pattern).isOk = true := by
  decide

theorem decodes_of_row {r : OpcodeRow} (hr : r ∈ opcodeMap) {w : Word} (h : w &&& r.mask = r.pattern) :
    ∃ i, decodeWord w = .ok i := by
  obtain ⟨hmask, hpattern, hok⟩ := opcodeMap_rows r hr
  have hagree : w &&& r.mask = r.pattern &&& r.mask := h.trans hpattern.symm
  rw [hmask] at hagree
  rw [← isOk_decodeWord_iff, isOk_decodeWord_congr hagree, hok]

theorem row_of_encode (i : Instr) : ∃ r ∈ opcodeMap, encode i &&& r.mask = r.pattern := by
  obtain ⟨r, hr, hselects⟩ := Laws.OpcodeRow.statement i
  exact ⟨r, List.mem_of_getElem? hr, beq_iff_eq.1 hselects⟩

/-- Settles O3: a word that decodes is an encoding, which its own row selects; a word that a row selects decodes because
the row's match value does. -/
theorem legalWordsAreTheOpcodeMap : Obligations.LegalWordsAreTheOpcodeMap := by
  intro w
  constructor
  · rintro ⟨i, hi⟩
    rw [← encode_of_decodeWord hi]
    exact row_of_encode i
  · rintro ⟨r, hr, h⟩
    exact decodes_of_row hr h

/-- Two rows whose match values agree on the bits that both masks keep are one row. -/
theorem opcodeMap_disjoint :
    ∀ r ∈ opcodeMap, ∀ q ∈ opcodeMap, r.pattern &&& q.mask = q.pattern &&& r.mask → r = q := by
  decide

/-- Settles O4: on the bits that both masks keep, both match values are the word's own bits. -/
theorem opcodeMapRowsDoNotOverlap : Obligations.OpcodeMapRowsDoNotOverlap := by
  refine ⟨rfl, by decide, fun w r hr q hq hrw hqw => opcodeMap_disjoint r hr q hq ?_⟩
  rw [← hrw, ← hqw, BitVec.and_assoc, BitVec.and_assoc, BitVec.and_comm r.mask]

/-- Settles O6: the decoder runs on each of the fixed words. -/
theorem specWordsDecode : Obligations.SpecWordsDecode :=
  ⟨rfl, rfl, rfl, rfl, rfl, rfl, rfl, rfl, rfl, rfl, rfl, rfl, rfl, rfl, rfl⟩

/-! ### A word that is no instruction (rule R118) -/

/-- Settles O8: the word of the statement is the one the step fetches. -/
theorem illegalWordRaisesIllegalInstruction : Obligations.IllegalWordRaisesIllegalInstruction := by
  rintro s w e hf hpc rfl he
  exact Machine.step_of_decode_error hf hpc he

end Sys2Proof

/-! PROOFS. Control transfer (spec/40_control_flow.md): a settled state is a fixed point of the step, and the
instructions that write nothing but `pc` leave it where rule R33's table says. -/

namespace Sys2Proof.Machine

/-! ### A jump to itself (rule R308) -/

/-- The parts of `State.settled`. -/
theorem State.settled_iff (s : State) :
    s.settled = true ↔ s.fault = none ∧ s.pc.toNat ≤ 4094 ∧ s.wordAt s.pc.toNat = 0x1000 + s.pc := by
  simp only [State.settled, Bool.and_eq_true, Option.isNone_iff_eq_none, decide_eq_true_eq, and_assoc]

/-- Every `pc` inside memory is the target of some `1nnn`. -/
theorem zextNnn_setWidth {p : Word} (h : p.toNat ≤ 4094) : zextNnn (p.setWidth 12) = p := by
  apply BitVec.eq_of_toNat_eq
  simp only [zextNnn, BitVec.toNat_setWidth]
  omega

/-- The word of a settled state decodes to the jump to `pc`, since it is the encoding of that jump. -/
theorem decodeWord_jumpToSelf {p : Word} (h : p.toNat ≤ 4094) : decodeWord (0x1000 + p) = .ok (.jp (p.setWidth 12)) := by
  have hword : encode (.jp (p.setWidth 12)) = 0x1000 + p := by
    apply BitVec.eq_of_toNat_eq
    rw [encode, toNat_wordNnn (by decide)]
    bv_omega
  rw [← hword, decodeWord_encode]

/-- Settles O28: the step fetches the jump to `pc`, which undoes the advance of `pc` by the fetch. -/
theorem settledStateStaysAsItIs : Obligations.SettledStateStaysAsItIs := by
  intro s h
  obtain ⟨hfault, hpc, hword⟩ := s.settled_iff.1 h
  have hdecode : decodeWord (s.wordAt s.pc.toNat) = .ok (.jp (s.pc.setWidth 12)) := by
    rw [hword, decodeWord_jumpToSelf hpc]
  calc step s
      = .next ((s.setPc (s.pc + 2)).setPc (zextNnn (s.pc.setWidth 12))) := step_of_decode_ok hfault hpc hdecode
    _ = .next s := by rw [zextNnn_setWidth hpc]; rfl

/-! ### Instructions that write nothing but `pc` (rules R141 and R144 to R148) -/

theorem pcFrame_setPc (s : State) (w : Word) : PcFrame s (s.setPc w) :=
  ⟨fun _ _ => rfl, ⟨rfl, rfl, rfl, rfl⟩, fun _ => rfl, fun _ _ => rfl, rfl, rfl, rfl, rfl⟩

/-- An execute phase that only sets `pc`, and to which rule R250's table gives no fault, sets it as rule R33's table
says. -/
theorem exec_pcFrame_of_setPc {i : Instr} {s : State} {w : Word} (hf : faultOf s i = none)
    (he : exec i s = .next (s.setPc w)) : ∃ t, exec i s = .next t ∧ t.pc = pcAfter (s.pc - 2) s i ∧ PcFrame s t :=
  have c : Completes i s (s.setPc w) := of_exec_eq_next he (exec_of_faultOf_eq_none hf)
  ⟨_, he, c.pc, pcFrame_setPc s w⟩

theorem toNat_pcAfter_jp (ipc : Word) (s : State) (nnn : BitVec 12) : (pcAfter ipc s (.jp nnn)).toNat = nnn.toNat := by
  have := nnn.isLt
  simp only [pcAfter, BitVec.toNat_setWidth]
  omega

/-- The sum of `Bnnn` is exact: it is at most 4095 + 255 (rule R147). -/
theorem toNat_pcAfter_jpV0 (ipc : Word) (s : State) (nnn : BitVec 12) :
    (pcAfter ipc s (.jpV0 nnn)).toNat = nnn.toNat + (s.getV 0).toNat := by
  have := nnn.isLt
  have := (s.getV 0).isLt
  simp only [pcAfter, BitVec.toNat_add, BitVec.toNat_setWidth]
  omega

/-- Settles O29: both jumps only set `pc`, to the target of rule R33's table. -/
theorem jumpsSetPc : Obligations.JumpsSetPc := by
  intro nnn s
  obtain ⟨t, ht, htpc, htframe⟩ := exec_pcFrame_of_setPc (i := .jp nnn) (s := s) rfl rfl
  obtain ⟨u, hu, hupc, huframe⟩ := exec_pcFrame_of_setPc (i := .jpV0 nnn) (s := s) rfl rfl
  refine ⟨⟨t, ht, ?_, htframe⟩, ⟨u, hu, ?_, huframe⟩⟩
  · rw [htpc, toNat_pcAfter_jp]
  · rw [hupc, toNat_pcAfter_jpV0]

/-- An execute phase that is a skip leaves `pc` as rule R33's table says, seen from the instruction's own address. -/
theorem exec_pcFrame_of_skipIf {i : Instr} {ipc : Word} {s : State} {c : Bool} (hpc : s.pc = ipc + 2)
    (hf : faultOf s i = none) (he : exec i s = .next (s.skipIf c)) :
    ∃ t, exec i s = .next t ∧ t.pc = pcAfter ipc s i ∧ PcFrame s t := by
  have hipc : s.pc - 2 = ipc := by rw [hpc, BitVec.add_sub_cancel]
  rw [State.skipIf_eq] at he
  rw [← hipc]
  exact exec_pcFrame_of_setPc hf he

/-- Settles O30: the table has the two outcomes of `4xnn` and `9xy0` under the negated condition. -/
theorem skipsAddTwoWhenTheConditionHolds : Obligations.SkipsAddTwoWhenTheConditionHolds := by
  intro x y nn ipc s hpc
  refine ⟨exec_pcFrame_of_skipIf hpc rfl rfl, ?_, exec_pcFrame_of_skipIf hpc rfl rfl, ?_⟩
  · rw [← ite_not]
    exact exec_pcFrame_of_skipIf hpc rfl rfl
  · rw [← ite_not]
    exact exec_pcFrame_of_skipIf hpc rfl rfl

end Sys2Proof.Machine

/-! PROOFS. Loads and additions (spec/41_load_alu.md): an instruction whose execute phase is a chain of register writes
changes the registers written and nothing else. -/

namespace Sys2Proof.Machine

/-! ### The frame of register writes -/

theorem RegistersFrame.refl (l : List Reg) (s : State) : RegistersFrame l s s :=
  ⟨fun _ _ => rfl, rfl, ⟨rfl, rfl, rfl, rfl⟩, fun _ => rfl, fun _ _ => rfl, rfl, rfl, rfl, rfl⟩

/-- One more write to a listed register keeps the frame. -/
theorem RegistersFrame.setV {l : List Reg} {s t : State} (h : RegistersFrame l s t) {x : Reg} (hx : x ∈ l) (b : Byte) :
    RegistersFrame l s (t.setV x b) := by
  obtain ⟨hregs, hrest⟩ := h
  refine ⟨fun r hr => ?_, hrest⟩
  have hne : r ≠ x := fun e => hr (e ▸ hx)
  rw [State.getV_setV_of_ne t hne, hregs r hr]

theorem registersFrame_setV (s : State) (x : Reg) (b : Byte) : RegistersFrame [x] s (s.setV x b) :=
  (RegistersFrame.refl [x] s).setV List.mem_cons_self b

/-! ### Wrapping addition and the flags (rules R31 and R172) -/

theorem toNat_add8 (a b : Byte) : (add8 a b).toNat = (a.toNat + b.toNat) % 256 :=
  BitVec.toNat_add a b

theorem flagByte_decide (P : Prop) [Decidable P] : flagByte (decide P) = if P then 1 else 0 := by
  simp only [flagByte, decide_eq_true_eq]

/-! ### Loads and additions (rules R161 to R163 and R167) -/

/-- Settles O34: both instructions are one register write. -/
theorem loadImmediateAndCopySetTheRegister : Obligations.LoadImmediateAndCopySetTheRegister :=
  fun x _ _ s =>
    ⟨⟨_, rfl, s.getV_setV_same x _, registersFrame_setV s x _⟩, ⟨_, rfl, s.getV_setV_same x _, registersFrame_setV s x _⟩⟩

/-- Settles O35: the instruction is one register write, of the wrapped sum. -/
theorem addImmediateWrapsWithoutAFlag : Obligations.AddImmediateWrapsWithoutAFlag := by
  intro x nn s
  refine ⟨s.setV x (add8 (s.getV x) nn), rfl, ?_, registersFrame_setV s x _⟩
  rw [State.getV_setV_same, toNat_add8]

/-- Settles O37: the carry is written last, so `VF` holds it whatever `x` is, and another `V[x]` still holds the sum. -/
theorem addSetsTheCarry : Obligations.AddSetsTheCarry := by
  intro x y s
  refine ⟨(s.setV x (add8 (s.getV x) (s.getV y))).setV VF (carryFlag (s.getV x) (s.getV y)), rfl, ?_, fun hx => ?_, ?_⟩
  · rw [State.getV_setV_same, carryFlag, flagByte_decide]
  · rw [State.getV_setV_of_ne _ hx, State.getV_setV_same, toNat_add8]
  · exact ((RegistersFrame.refl [x, VF] s).setV (by simp) _).setV (by simp) _

end Sys2Proof.Machine

/-! PROOFS. The key wait (spec/44_timers_keys.md): `Fx0A` is a register write while a key is held, and a step back to
its own address while none is. -/

namespace Sys2Proof.Machine

theorem toNat_zextKey (k : Key) : (zextKey k).toNat = k.toNat :=
  BitVec.toNat_setWidth_of_le (by decide)

theorem exec_ldVxK_of_held {s : State} {k : Key} (h : s.key = some k) (x : Reg) :
    exec (.ldVxK x) s = .next (s.setV x (zextKey k)) := by
  show execLdVxK x s = _
  simp only [execLdVxK, h]

theorem exec_ldVxK_of_none {s : State} (h : s.key = none) (x : Reg) :
    exec (.ldVxK x) s = .next (s.setPc (s.pc - 2)) := by
  show execLdVxK x s = _
  simp only [execLdVxK, h]

/-- Settles O54: the two cases of rule R233; stepping back from `ipc + 2` gives `ipc`. -/
theorem keyWaitLoadsTheHeldKeyOrRepeats : Obligations.KeyWaitLoadsTheHeldKeyOrRepeats := by
  intro x ipc s hpc
  refine ⟨fun k hk => ⟨s.setV x (zextKey k), exec_ldVxK_of_held hk x, ?_, registersFrame_setV s x _⟩, fun hk => ?_⟩
  · rw [State.getV_setV_same, toNat_zextKey]
  · rw [exec_ldVxK_of_none hk, hpc, BitVec.add_sub_cancel]
    rfl

end Sys2Proof.Machine

/-! PROOFS. Exceptions (spec/60_exceptions.md): the latch after an execute phase is what rule R250's table says, and the
debug controller of section 7, whose iteration either leaves the core alone or steps it once. -/

namespace Sys2Proof.Machine

/-! ### The fault table (rules R250 and R258) -/

/-- Settles O21: where the table gives a fault the instruction raises it, and where it gives none the instruction
completes, which leaves the latch clear. -/
theorem faultsAreExactlyTheTable : Obligations.FaultsAreExactlyTheTable := by
  intro i s t hs he
  cases hi : faultOf s i with
  | some f =>
    have raised : t = s.raise f := Host.Outcome.next.inj (he.symm.trans (exec_of_faultOf_eq_some hi))
    rw [raised, State.raise_fault]
  | none =>
    have c : Completes i s t := of_exec_eq_next he (exec_of_faultOf_eq_none hi)
    exact c.fault.trans hs

/-! ### One iteration of the debug controller (rules R270 and R278 to R280) -/

/-- The controller goes on only from a step that answers a next state, and as it already is. -/
theorem Debugger.afterStep_eq_next {d d' : Debugger} {o : Host.Outcome State Fault Refusal} {t : State}
    {reply : DebugReply} (h : d.afterStep o = .next (d', t, reply)) : o = .next t ∧ d' = d ∧ reply = .none := by
  cases o with
  | next u => cases h; exact ⟨rfl, rfl, rfl⟩
  | fault r => cases h
  | refused r => cases h

/-- An iteration leaves the core alone, or steps it once and goes on in the state that was chosen before the step. -/
theorem Debugger.iterate_cases (d : Debugger) (s : State) :
    (∃ d' reply, d.iterate s = .next (d', s, reply)) ∨ ∃ d' : Debugger, d.iterate s = d'.afterStep (step s) := by
  unfold Debugger.iterate
  split
  case h_1 =>
    split
    case isTrue => exact .inl ⟨_, _, rfl⟩
    case isFalse =>
      split
      case h_1 => exact .inl ⟨_, _, rfl⟩
      case h_2 | h_3 => exact .inr ⟨_, rfl⟩
  case h_2 | h_3 | h_4 => exact .inl ⟨_, _, rfl⟩

/-- Settles O59, by the two things an iteration can do to the core. -/
theorem debuggerChangesTheCoreOnlyByStepping : Obligations.DebuggerChangesTheCoreOnlyByStepping := by
  intro d d' s s' reply h
  rcases d.iterate_cases s with ⟨_, _, hsame⟩ | ⟨_, hstep⟩
  · rw [hsame] at h
    cases h
    exact .inl rfl
  · rw [hstep] at h
    exact .inr (Debugger.afterStep_eq_next h).1

/-- While the one-shot suppression is on, a `Running` controller without a count steps, whatever its breakpoints are, and
the suppression is off after it (rules R278 and R279). -/
theorem Debugger.iterate_of_suppressed {d : Debugger} (hmode : d.mode = .running none) (hsup : d.suppress = true)
    (s : State) : d.iterate s = Debugger.afterStep { d with suppress := false } (step s) := by
  simp [Debugger.iterate, hmode, hsup]

/-- With the suppression off, a `Running` controller stops at a breakpoint without a step (rule R278). -/
theorem Debugger.iterate_of_breakpoint {d : Debugger} {remaining : Option Nat} (hmode : d.mode = .running remaining)
    (hsup : d.suppress = false) {s : State} (hpc : s.pc ∈ d.breakpoints) :
    d.iterate s = .next ({ d with mode := .breakpointHit }, s, .none) := by
  rw [Debugger.iterate, hmode]
  exact if_pos ⟨hsup, hpc⟩

/-- `continue` on a paused controller enters `Running` without a count (rule R273). -/
theorem Debugger.command_continue {d : Debugger} (hmode : d.mode = .paused) (s : State) :
    d.command .continue s = .next (d.enterRunning none, .none) := by
  unfold Debugger.command
  rw [hmode]
  rfl

/-- Settles O60: `continue` turns the suppression on, so the first iteration steps; that turns it off, so the second one
stops at the breakpoint. -/
theorem breakpointsHitAfterOneSuppressedIteration : Obligations.BreakpointsHitAfterOneSuppressedIteration := by
  intro d s t hmode hstep hpc
  refine ⟨d.enterRunning none, { d.enterRunning none with suppress := false }, _, d.command_continue hmode s, ?_,
    Debugger.iterate_of_breakpoint rfl rfl hpc, rfl⟩
  rw [Debugger.iterate_of_suppressed rfl rfl, hstep]
  rfl

end Sys2Proof.Machine

/-! PROOFS. Reset and the loader (spec/70_reset_and_hazards.md): the reset values that the source states, and the map of
the 4096 addresses in the loader's image. -/

namespace Sys2Proof.Machine

/-! ### The reset state (rules R52 and R300) -/

@[simp] theorem State.memRead_resetWith (p : Params) (draws a : Nat) : (State.resetWith p draws).memRead a = 0 := rfl

@[simp] theorem State.getV_resetWith (p : Params) (draws : Nat) (r : Reg) : (State.resetWith p draws).getV r = 0 :=
  Vector.getElem_replicate r.isLt

/-- Settles O12: no byte of memory is written, and every register is one of 16 zeros. -/
theorem resetValuesOfTheSource : Obligations.ResetValuesOfTheSource :=
  ⟨State.memRead_resetWith _ _, State.getV_resetWith _ _, rfl⟩

/-! ### Reading through the parts of an image -/

/-- Zeros in front of a list move it up; the addresses below it read 0. -/
theorem getD_zeros_append (n i : Nat) (l : List Byte) :
    (List.replicate n 0 ++ l).getD i 0 = if i < n then 0 else l.getD (i - n) 0 := by
  by_cases h : i < n
  · rw [if_pos h, List.getD_append _ _ _ _ (by simpa using h), List.getD_replicate _ h]
  · rw [if_neg h, List.getD_append_right _ _ _ _ (by simpa using h), List.length_replicate]

/-- Zeros behind a list change no byte read with the default 0. -/
theorem getD_append_zeros (l : List Byte) (n i : Nat) : (l ++ List.replicate n 0).getD i 0 = l.getD i 0 := by
  by_cases h : i < l.length
  · exact List.getD_append _ _ _ _ h
  · have hle : l.length ≤ i := Nat.le_of_not_lt h
    rw [List.getD_append_right _ _ _ _ hle, List.getD_eq_default l 0 hle,
      List.getD_eq_getElem?_getD, List.getElem?_getD_replicate_default_eq]

theorem getD_font_append (font : Vector Byte Config.fontLen) (l : List Byte) (i : Nat) :
    (font.toList ++ l).getD i 0 = if h : i < Config.fontLen then font[i] else l.getD (i - Config.fontLen) 0 := by
  by_cases h : i < Config.fontLen
  · rw [dif_pos h, List.getD_append _ _ _ _ (by simpa using h), List.getD_eq_getElem _ _ (by simpa using h),
      Vector.getElem_toList]
  · rw [dif_neg h, List.getD_append_right _ _ _ _ (by simpa using h), Vector.length_toList]

/-! ### The loader's image (rules R81 and R304) -/

/-- What the loader puts together: zeros up to the font, the font, zeros up to the program, the program, zeros up to the
end of memory. -/
def imageBytes (font : Vector Byte Config.fontLen) (program : List Byte) : List Byte :=
  List.replicate Config.fontBase 0 ++ (font.toList ++ (List.replicate (Config.progBase - Config.fontBase - Config.fontLen) 0 ++
    (program ++ List.replicate (Config.maxProgram - program.length) 0)))

section Loader

variable {font : Vector Byte Config.fontLen} {program : List Byte}

theorem loaderImage_of_fits (h : program.length ≤ Config.maxProgram) :
    loaderImage font program = .next (imageBytes font program) := by
  simp only [loaderImage, programWellFormed, decide_eq_true h, if_true, imageBytes, List.append_assoc]

theorem loaderImage_of_too_long (h : Config.maxProgram < program.length) :
    loaderImage font program = .fault (.programTooLarge program.length) := by
  simp only [loaderImage, programWellFormed, decide_eq_true_eq, if_neg (Nat.not_le_of_lt h)]

/-- A program that fits is padded to the end of memory exactly. -/
theorem length_imageBytes (h : program.length ≤ Config.maxProgram) : (imageBytes font program).length = Config.memSize := by
  simp only [imageBytes, List.length_append, List.length_replicate, Vector.length_toList, Nat.add_sub_cancel' h,
    Config.fontBase, Config.fontLen, Config.progBase, Config.maxProgram, Config.memSize]

/-- The byte at an address, found by going through the five parts from the front. -/
theorem getD_imageBytes (a : Nat) : (imageBytes font program).getD a 0 =
    if a < 0x050 then 0
    else if h : a - 0x050 < 80 then font[a - 0x050]
    else if a - 0x050 - 80 < 352 then 0
    else program.getD (a - 0x050 - 80 - 352) 0 := by
  rw [imageBytes, getD_zeros_append, getD_font_append, getD_zeros_append, getD_append_zeros]
  rfl

end Loader

/-- Settles O57: the image is five parts in a row, and they begin where rule R81's map has them. -/
theorem loaderImageHasTheAddressMap : Obligations.LoaderImageHasTheAddressMap := by
  intro font program
  refine ⟨fun h => ⟨imageBytes font program, loaderImage_of_fits h, length_imageBytes h, fun a _ => ?_⟩,
    loaderImage_of_too_long⟩
  rw [getD_imageBytes]
  by_cases hbelow : a < 0x050
  · rw [if_pos hbelow, dif_neg (by omega), if_neg (by omega)]
  rw [if_neg hbelow]
  by_cases hfont : a < 0x0A0
  · rw [dif_pos (show a - 0x050 < 80 by omega), dif_pos ⟨by omega, hfont⟩]
  rw [dif_neg (show ¬ a - 0x050 < 80 by omega), dif_neg (by omega)]
  by_cases hgap : a < 0x200
  · rw [if_pos (by omega), if_neg (by omega)]
  · have hoffset : a - 0x050 - 80 - 352 = a - 0x200 := by simp only [Nat.sub_sub]
    rw [if_neg (by omega), if_pos (by omega), hoffset]

end Sys2Proof.Machine

/-! PROOFS. Faults and steps (spec/10_state.md, spec/60_exceptions.md): a fault writes the latch alone, every step answers
a next state, and what the reset state and its first step are. -/

namespace Sys2Proof.Machine

/-! ### The fault latch (rules R250 to R257) -/

/-- An execute phase that changes the latch raises the fault it leaves there. -/
theorem eq_raise_of_fault {i : Instr} {s t : State} (hs : s.fault = none) (he : exec i s = .next t) (ht : t.fault ≠ none) :
    ∃ f, t = s.raise f := by
  cases hi : faultOf s i with
  | some f => exact ⟨f, Host.Outcome.next.inj (he.symm.trans (exec_of_faultOf_eq_some hi))⟩
  | none => exact absurd ((faultsAreExactlyTheTable i s t hs he).trans hi) ht

/-- Settles O22: raising a fault writes the latch alone. -/
theorem faultingInstructionChangesNothingElse : Obligations.FaultingInstructionChangesNothingElse := by
  intro i s t hs he ht
  obtain ⟨f, rfl⟩ := eq_raise_of_fault hs he ht
  rfl

/-- Settles O9: the fetch raises the fault before anything is read. -/
theorem fetchOutsideMemoryRaisesPcOutOfBounds : Obligations.FetchOutsideMemoryRaisesPcOutOfBounds :=
  fun _ hs hpc => step_of_pc_ge hs hpc

theorem timerTick_of_fault {s : State} {f : FaultRecord} (h : s.fault = some f) : timerTick s = s := by
  rw [timerTick, h]

/-- Settles O10: both look at the latch first. -/
theorem faultedCoreDoesNothing : Obligations.FaultedCoreDoesNothing :=
  fun _ _ h => ⟨step_of_fault h, timerTick_of_fault h⟩

/-- Settles O11, by the four ways a step can go. -/
theorem everyStepAnswersANextState : Obligations.EveryStepAnswersANextState := by
  intro s
  cases hf : s.fault with
  | some f => exact ⟨_, step_of_fault hf⟩
  | none =>
    by_cases hpc : 4095 ≤ s.pc.toNat
    · exact ⟨_, step_of_pc_ge hf hpc⟩
    · have hle : s.pc.toNat ≤ 4094 := by omega
      cases hd : decodeWord (s.wordAt s.pc.toNat) with
      | ok i =>
        obtain ⟨t, ht, _⟩ := exec_changesOnlyWritten i (s.setPc (s.pc + 2))
        exact ⟨t, (step_of_decode_ok hf hle hd).trans ht⟩
      | error e => exact ⟨_, step_of_decode_error hf hle hd⟩

/-! ### The reset state (rules R52 and R306) -/

/-- Settles O13: the fields of the reset state; a clear frame has no lit pixel. -/
theorem resetValuesDecided : Obligations.ResetValuesDecided :=
  ⟨rfl, rfl, rfl, rfl, Frame.pixel_clear, rfl, rfl⟩

/-- Settles O14: memory without an image reads 0, and the word 0x0000 is illegal. -/
theorem firstStepWithoutAnImageFaults : Obligations.FirstStepWithoutAnImageFaults :=
  step_of_decode_error (s := State.reset) (e := .illegalClass0) rfl (by decide) rfl

/-- Settles O15: the spec's default parameters are legal. -/
theorem resetMeetsTheInvariant : Obligations.ResetMeetsTheInvariant :=
  State.reset.inv_iff.2 (State.resetWith_inv rfl 0)

end Sys2Proof.Machine

/-! PROOFS. Illegal words (spec/30_encoding.md rule R119): which words of each class do not decode. -/

namespace Sys2Proof

/-! ### The fields as the bits they are (rule R111) -/

theorem toNat_classBits (w : Word) : (w.extractLsb' 12 4).toNat = classField w := by
  have := w.isLt
  simp only [BitVec.extractLsb'_toNat, Nat.shiftRight_eq_div_pow, classField]
  omega

theorem toNat_nBits (w : Word) : (w.extractLsb' 0 4).toNat = (nField w).val := by
  simp [BitVec.extractLsb'_toNat, nField]

theorem nnBits_eq (w : Word) : w.extractLsb' 0 8 = nnField w :=
  BitVec.eq_of_toNat_eq (by simp [BitVec.extractLsb'_toNat, nnField])

theorem classBits_eq_iff (w : Word) (c : BitVec 4) : w.extractLsb' 12 4 = c ↔ classField w = c.toNat := by
  rw [← toNat_classBits, BitVec.toNat_inj]

theorem nBits_eq_iff (w : Word) (n : BitVec 4) : w.extractLsb' 0 4 = n ↔ (nField w).val = n.toNat := by
  rw [← toNat_nBits, BitVec.toNat_inj]

theorem nBits_eq_zero_iff (w : Word) : w.extractLsb' 0 4 = 0 ↔ nField w = 0 := by
  rw [nBits_eq_iff, Fin.ext_iff]
  rfl

theorem nnBits_eq_iff (w : Word) (nn : Byte) : w.extractLsb' 0 8 = nn ↔ (nnField w).toNat = nn.toNat := by
  rw [nnBits_eq, BitVec.toNat_inj]

/-! ### The classes with a discriminant (rule R114) -/

theorem decodeClass0_error_iff (w : Word) : (∃ e, decodeClass0 w = .error e) ↔ w ≠ 0x00E0 ∧ w ≠ 0x00EE := by
  unfold decodeClass0
  split
  case isTrue h => simp [h]
  case isFalse h =>
    split
    case isTrue h' => simp [h']
    case isFalse h' => exact iff_of_true ⟨_, rfl⟩ ⟨h, h'⟩

theorem decodeClass8_error_iff (w : Word) : (∃ e, decodeClass8 w = .error e) ↔
    w.extractLsb' 0 4 ∈ ([0x8, 0x9, 0xA, 0xB, 0xC, 0xD, 0xF] : List (BitVec 4)) := by
  have hlt := (nField w).isLt
  simp only [List.mem_cons, List.not_mem_nil, or_false, nBits_eq_iff]
  unfold decodeClass8
  split
  case h_10 =>
    refine iff_of_true ⟨_, rfl⟩ ?_
    grind
  all_goals simp [*]

theorem decodeClassF_error_iff (w : Word) : (∃ e, decodeClassF w = .error e) ↔
    w.extractLsb' 0 8 ∉ ([0x07, 0x0A, 0x15, 0x18, 0x1E, 0x29, 0x33, 0x55, 0x65] : List (BitVec 8)) := by
  simp only [List.mem_cons, List.not_mem_nil, or_false, nnBits_eq_iff]
  unfold decodeClassF
  split
  case h_10 =>
    refine iff_of_true ⟨_, rfl⟩ ?_
    grind
  all_goals simp [*]

theorem error_ite_iff {P : Prop} [Decidable P] (i : Instr) (e : DecodeError) :
    (∃ e', (if P then .ok i else .error e : Except DecodeError Instr) = .error e') ↔ ¬ P := by
  by_cases h : P
  · simp [h]
  · simp [h]

/-- Settles O5, class by class: case `h_k` is the decoder's branch for class `k - 1`. -/
theorem illegalWordsByClass : Obligations.IllegalWordsByClass := by
  intro w
  simp only [classBits_eq_iff]
  unfold decodeWord
  split
  case h_1 hc => simp [hc, decodeClass0_error_iff]
  case h_6 hc | h_10 hc => simp [hc, error_ite_iff, ← nBits_eq_zero_iff]
  case h_9 hc => simp [hc, decodeClass8_error_iff]
  case h_16 =>
    have hc : classField w = 0xF := by have := classField_lt w; grind
    simp [hc, decodeClassF_error_iff]
  case h_2 hc | h_3 hc | h_4 hc | h_5 hc | h_7 hc | h_8 hc | h_11 hc | h_12 hc | h_13 hc | h_14 hc | h_15 hc =>
    simp [hc]

end Sys2Proof

/-! PROOFS. The rules of the whole machine once more (spec/10_state.md rules R30 and R31, spec/20_memory.md rule R92): the
general registers an instruction leaves alone, and ticks before and after it. -/

namespace Sys2Proof.Machine

/-! ### Frames of register writes -/

/-- Two states that differ in general registers only, and there in the listed ones. -/
theorem registersFrame_of_v {l : List Reg} {s : State} {v' : Vector Byte 16} (h : OnlyRegisters l s { s with v := v' }) :
    RegistersFrame l s { s with v := v' } :=
  ⟨h, rfl, ⟨rfl, rfl, rfl, rfl⟩, fun _ => rfl, fun _ _ => rfl, rfl, rfl, rfl, rfl⟩

/-- More registers may be listed. -/
theorem RegistersFrame.mono {l l' : List Reg} {s t : State} (h : RegistersFrame l s t) (hl : l ⊆ l') :
    RegistersFrame l' s t := by
  obtain ⟨hregs, hrest⟩ := h
  exact ⟨fun r hr => hregs r fun hm => hr (hl hm), hrest⟩

theorem registersFrame_subtractAfterFlag (s : State) (f : Byte) (x a b : Reg) :
    RegistersFrame [x, VF] s (s.subtractAfterFlag f x a b) :=
  ((RegistersFrame.refl [x, VF] s).setV (by simp) _).setV (by simp) _

theorem registersFrame_shift (s : State) (x y : Reg) (flag shift : Byte → Byte) :
    RegistersFrame [x, VF] s ((s.shiftSource x y).shiftAfterFlag x flag shift) := by
  rw [State.shift_eq]
  refine registersFrame_of_v fun r hr => ?_
  simp only [List.mem_cons, List.not_mem_nil, or_false, not_or] at hr
  exact (s.getV_shift x y r flag shift rfl).trans (by rw [if_neg hr.1, if_neg hr.2])

/-- `Fx65` writes the registers up to `x` (rule R195). -/
theorem registersFrame_loadRegs (s : State) (x : Reg) :
    RegistersFrame (mayWrite (.ldVxMem x)) s (s.loadRegs (blockRegs x)) := by
  rw [State.loadRegs_eq]
  refine registersFrame_of_v fun r hr => ?_
  have hr : r ∉ blockRegs x := fun h => hr (by simpa [mayWrite] using (mem_blockRegs x r).1 h)
  exact (State.getV_loadRegs _ s r).trans (if_neg hr)

/-! ### Which registers an instruction may write (rules R30 and R31) -/

/-- An instruction that completes writes the registers that `mayWrite` lists for it, and no other. -/
theorem onlyRegisters_of_faultOf_eq_none {i : Instr} {s : State} (h : faultOf s i = none) :
    ∃ t, exec i s = .next t ∧ OnlyRegisters (mayWrite i) s t := by
  cases i with
  | ldVxNn x _ | addVxNn x _ | ldVxVy x _ | or x _ | and x _ | xor x _ | rnd x _ | ldVxDt x =>
    exact ⟨_, rfl, (registersFrame_setV s x _).1⟩
  | ldVxK x =>
    refine ⟨_, rfl, ?_⟩
    cases s.key with
    | none => exact fun _ _ => rfl
    | some k => exact (registersFrame_setV s x _).1
  | addVxVy x _ => exact ⟨_, rfl, (((RegistersFrame.refl [x, VF] s).setV (by simp) _).setV (by simp) _).1⟩
  | sub _ _ | subn _ _ => exact ⟨_, rfl, (registersFrame_subtractAfterFlag s ..).1⟩
  | shr _ _ | shl _ _ => exact ⟨_, rfl, (registersFrame_shift s ..).1⟩
  | drw x y n =>
    exact ⟨_, congrArg Host.Outcome.next (State.withBlock_of_no_memFault h _), (registersFrame_setV s VF _).1⟩
  | ldVxMem x =>
    exact ⟨_, congrArg Host.Outcome.next (State.withBlock_of_no_memFault h _), (registersFrame_loadRegs s x).1⟩
  | ldBVx _ | ldMemVx _ =>
    exact ⟨_, congrArg Host.Outcome.next (State.withBlock_of_no_memFault h _), fun _ _ => State.getV_memWriteList ..⟩
  | ret =>
    have hs : s.stack ≠ [] := fun hs => by simp [faultOf, hs] at h
    exact ⟨_, execRet_of_ne_nil hs, fun _ _ => rfl⟩
  | call nnn =>
    have hs : s.params.stackDepth ≠ some s.stack.length := fun hs => by simp [faultOf, hs] at h
    exact ⟨_, execCall_of_not_full nnn hs, fun _ _ => rfl⟩
  | seVxNn _ _ | sneVxNn _ _ | seVxVy _ _ | sneVxVy _ _ =>
    exact ⟨_, congrArg Host.Outcome.next (State.skipIf_eq ..), fun _ _ => rfl⟩
  | _ => exact ⟨_, rfl, fun _ _ => rfl⟩

/-- Settles O23: a fault writes no register, and an instruction that completes writes its own alone. -/
theorem registersChangeOnlyByTheirWriters : Obligations.RegistersChangeOnlyByTheirWriters := by
  intro i s t he
  refine of_exec_eq_next he ?_
  cases hf : faultOf s i with
  | some f => exact ⟨_, exec_of_faultOf_eq_some hf, fun _ _ => rfl⟩
  | none => exact onlyRegisters_of_faultOf_eq_none hf

/-! ### Ticks (rules R92 and R262)

A tick writes both timers. An operation that looks at neither does the same whatever they hold. -/

/-- Both timers get new values. -/
def State.withTimers (s : State) (d e : Byte) : State := (s.setDt d).setSt e

section WithTimers

variable (d e : Byte)

theorem State.memWriteList_withTimers (l : List Byte) : ∀ (s : State) (a : Nat),
    (s.withTimers d e).memWriteList a l = (s.memWriteList a l).withTimers d e := by
  induction l with
  | nil => exact fun _ _ => rfl
  | cons b rest ih =>
    intro s a
    have hone : (s.withTimers d e).memWrite a b = (s.memWrite a b).withTimers d e := by
      rw [State.memWrite_eq, State.memWrite_eq s]
      simp only [State.memWrite_mem]
      rfl
    rw [State.memWriteList, hone, ih, State.memWriteList]

theorem State.loadRegs_withTimers (l : List Reg) : ∀ s : State,
    (s.withTimers d e).loadRegs l = (s.loadRegs l).withTimers d e := by
  induction l with
  | nil => exact fun _ => rfl
  | cons r rest ih => exact fun s => ih (s.setV r (s.memRead (s.i.toNat + r.val)))

theorem State.shift_withTimers (s : State) (x y : Reg) (flag shift : Byte → Byte) :
    ((s.withTimers d e).shiftSource x y).shiftAfterFlag x flag shift
      = ((s.shiftSource x y).shiftAfterFlag x flag shift).withTimers d e := by
  obtain ⟨v, pc, i, stack, dt, st, mem, fb, key, fault, ⟨src, edge, depth⟩, draws⟩ := s
  cases src with
  | vy => rfl
  | vx => rfl

/-- A checked block access in memory does the same when its action does: the check reads `I` alone. -/
theorem State.withBlock_withTimers {s : State} {k : Nat} (hk : memFaultOf s k = none) {act : State → State}
    (ha : act (s.withTimers d e) = (act s).withTimers d e) :
    (s.withTimers d e).withBlock k act = (s.withBlock k act).withTimers d e := by
  rw [State.withBlock_of_no_memFault (s := s.withTimers d e) hk, State.withBlock_of_no_memFault hk, ha]

/-- An instruction that completes and touches no timer does the same whatever the timers hold. -/
theorem exec_withTimers {i : Instr} {s : State} (h : faultOf s i = none) (hdt : ∀ x, i ≠ .ldVxDt x)
    (hwd : ∀ x, i ≠ .ldDtVx x) (hws : ∀ x, i ≠ .ldStVx x) :
    ∃ t, exec i s = .next t ∧ exec i (s.withTimers d e) = .next (t.withTimers d e) := by
  cases i with
  | ldVxDt x => exact absurd rfl (hdt x)
  | ldDtVx x => exact absurd rfl (hwd x)
  | ldStVx x => exact absurd rfl (hws x)
  | ret =>
    have hs : s.stack ≠ [] := fun hs => by simp [faultOf, hs] at h
    exact ⟨_, execRet_of_ne_nil hs, execRet_of_ne_nil (s := s.withTimers d e) hs⟩
  | call nnn =>
    have hs : s.params.stackDepth ≠ some s.stack.length := fun hs => by simp [faultOf, hs] at h
    exact ⟨_, execCall_of_not_full nnn hs, execCall_of_not_full (s := s.withTimers d e) nnn hs⟩
  | seVxNn _ _ | sneVxNn _ _ | seVxVy _ _ | sneVxVy _ _ =>
    exact ⟨_, congrArg Host.Outcome.next (State.skipIf_eq ..), congrArg Host.Outcome.next (State.skipIf_eq ..)⟩
  | ldVxK x =>
    cases hk : s.key with
    | none => exact ⟨_, exec_ldVxK_of_none hk x, exec_ldVxK_of_none (s := s.withTimers d e) hk x⟩
    | some k => exact ⟨_, exec_ldVxK_of_held hk x, exec_ldVxK_of_held (s := s.withTimers d e) hk x⟩
  | shr _ _ | shl _ _ => exact ⟨_, rfl, congrArg Host.Outcome.next (s.shift_withTimers d e ..)⟩
  | drw _ _ _ => exact ⟨_, rfl, congrArg Host.Outcome.next (State.withBlock_withTimers d e h rfl)⟩
  | ldBVx _ | ldMemVx _ =>
    exact ⟨_, rfl,
      congrArg Host.Outcome.next (State.withBlock_withTimers d e h (State.memWriteList_withTimers d e _ s _))⟩
  | ldVxMem _ =>
    exact ⟨_, rfl, congrArg Host.Outcome.next (State.withBlock_withTimers d e h (State.loadRegs_withTimers d e _ s))⟩
  | _ => exact ⟨_, rfl, rfl⟩

end WithTimers

/-- Settles O27: the instruction leaves the timers as they were, so the tick after it writes what the tick before it
wrote. -/
theorem tickCommutesWithOtherInstructions : Obligations.TickCommutesWithOtherInstructions := by
  intro i s t hs hdt hwd hws he ht
  have hf : faultOf s i = none := (faultsAreExactlyTheTable i s t hs he).symm.trans ht
  have hw : ChangesOnlyWritten i s t := of_exec_eq_next he (exec_changesOnlyWritten i s)
  rw [timerTick_of_no_fault hs, timerTick_of_no_fault ht, hw.dt hwd, hw.st hws]
  exact of_exec_eq_next he (exec_withTimers (countDown s.dt) (countDown s.st) hf hdt hwd hws)

end Sys2Proof.Machine

/-! PROOFS. Call and return (spec/40_control_flow.md rules R142 and R143): each moves `pc` and the stack and nothing else,
and a return undoes a call. -/

namespace Sys2Proof.Machine

theorem stackFrame_setStack_setPc (s : State) (l : List Word) (w : Word) : StackFrame s ((s.setStack l).setPc w) :=
  ⟨fun _ _ => rfl, rfl, rfl, rfl, fun _ => rfl, fun _ _ => rfl, rfl, rfl, rfl, rfl⟩

theorem toNat_zextNnn (nnn : BitVec 12) : (zextNnn nnn).toNat = nnn.toNat :=
  BitVec.toNat_setWidth_of_le (by decide)

/-- `00EE` on a stack with an entry pops the top one into `pc`, said with the entry named (rule R142). -/
theorem exec_ret_of_stack {s : State} {below : List Word} {top : Word} (h : s.stack = below ++ [top]) :
    exec .ret s = .next ((s.setStack below).setPc top) := by
  have hne : s.stack ≠ [] := by rw [h]; exact List.concat_ne_nil top below
  rw [show exec .ret s = execRet s from rfl, execRet_of_ne_nil hne, h, List.dropLast_concat, List.getLastD_concat]

/-- Settles O31, by the two cases of rule R143. -/
theorem callPushesTheReturnAddress : Obligations.CallPushesTheReturnAddress := by
  intro nnn s
  refine ⟨fun h => ?_, fun h => execCall_of_full nnn h⟩
  exact ⟨_, execCall_of_not_full nnn h, rfl, toNat_zextNnn nnn, stackFrame_setStack_setPc s _ _⟩

/-- Settles O32, by the two cases of rule R142. -/
theorem returnPopsTheStack : Obligations.ReturnPopsTheStack := by
  intro s
  refine ⟨fun below top h => ?_, fun h => execRet_of_nil h⟩
  exact ⟨_, exec_ret_of_stack h, rfl, rfl, stackFrame_setStack_setPc s _ _⟩

/-- Settles O33: the call leaves the old stack with the old `pc` on top, and the return pops just that. -/
theorem returnUndoesCall : Obligations.ReturnUndoesCall := by
  intro nnn pc' s t h ht
  have called : t = (s.setStack (s.stack ++ [s.pc])).setPc (zextNnn nnn) :=
    Host.Outcome.next.inj (ht.symm.trans (execCall_of_not_full nnn h))
  subst called
  exact exec_ret_of_stack rfl

end Sys2Proof.Machine

/-! PROOFS. The index register and the blocks of memory (spec/42_index_memory.md), and the `load` port
(spec/70_reset_and_hazards.md rule R303). -/

namespace Sys2Proof.Machine

/-! ### The index register (rules R190 to R192) -/

theorem indexFrame_setI (s : State) (w : Word) : IndexFrame s (s.setI w) :=
  ⟨fun _ _ => rfl, rfl, rfl, rfl, rfl, fun _ => rfl, fun _ _ => rfl, rfl, rfl, rfl, rfl⟩

theorem toNat_add_zextByte (w : Word) (b : Byte) : (w + zextByte b).toNat = (w.toNat + b.toNat) % 65536 := by
  rw [BitVec.toNat_add, zextByte, BitVec.toNat_setWidth_of_le (by decide)]

/-- A glyph's address is at most 255 * 5 + 0x050, which 16 bits hold. -/
theorem toNat_glyphAddress (b : Byte) : (glyphAddress b).toNat = b.toNat * 5 + 0x050 := by
  have := b.isLt
  simp only [glyphAddress, BitVec.toNat_ofNat, Config.fontBase]
  omega

/-- Settles O43: each of the three instructions writes `I` alone. -/
theorem indexInstructionsSetI : Obligations.IndexInstructionsSetI :=
  fun nnn x s =>
    ⟨⟨_, rfl, toNat_zextNnn nnn, indexFrame_setI s _⟩,
     ⟨_, rfl, toNat_add_zextByte s.i (s.getV x), indexFrame_setI s _⟩,
     ⟨_, rfl, toNat_glyphAddress (s.getV x), indexFrame_setI s _⟩⟩

/-! ### Accesses outside memory (rules R86 and R254) -/

/-- The fault of an instruction that accesses memory is that of its access. -/
theorem faultOf_of_access (s : State) {i : Instr} (h : 1 ≤ accessSize i) : faultOf s i = memFaultOf s (accessSize i) := by
  cases i with
  | drw _ _ _ | ldBVx _ | ldMemVx _ | ldVxMem _ => rfl
  | _ => exact absurd h (Nat.not_succ_le_zero 0)

/-- An access that leaves memory records its lowest address outside: 0x1000 when it starts inside, else `I`. -/
theorem memFaultOf_of_not_inMemory {s : State} {k : Nat} (hk : 1 ≤ k) (h : ¬ InMemory s k) :
    memFaultOf s k = some (.memOutOfBounds (if s.i.toNat < 4096 then 0x1000 else s.i)) := by
  have hout : ¬ s.i.toNat + k ≤ 4096 := h
  rw [memFaultOf, if_pos (by omega)]
  by_cases hi : s.i.toNat < 4096
  · rw [if_pos hi, Nat.max_eq_right (by omega)]
    rfl
  · rw [if_neg hi, Nat.max_eq_left (by omega), BitVec.ofNat_toNat, BitVec.setWidth_eq]

/-- Settles O48: the access raises the fault that rule R250's table gives it. -/
theorem accessOutsideMemoryRaisesMemOutOfBounds : Obligations.AccessOutsideMemoryRaisesMemOutOfBounds := by
  intro i s hk h
  exact exec_of_faultOf_eq_some ((faultOf_of_access s hk).trans (memFaultOf_of_not_inMemory hk h))

/-! ### Stores and loads in memory (rules R193 to R195) -/

/-- Storing bytes changes memory and nothing else. -/
theorem State.memWriteList_eq (s : State) (a : Nat) (l : List Byte) :
    s.memWriteList a l = { s with mem := (s.memWriteList a l).mem } := by
  induction l generalizing s a with
  | nil => rfl
  | cons b rest ih => rw [State.memWriteList, ih, State.memWrite_eq]

theorem storeFrame_memWriteList (s : State) {a k : Nat} {l : List Byte} (h : l.length = k) :
    StoreFrame a k s (s.memWriteList a l) := by
  refine ⟨fun _ _ => State.getV_memWriteList .., State.memWriteList_pc .., ?_, ?_, ?_, ?_⟩
  · exact ⟨State.memWriteList_i .., State.memWriteList_stack .., State.memWriteList_dt .., State.memWriteList_st ..⟩
  · exact fun b hb => State.memRead_memWriteList_outside l s a (h ▸ hb)
  · exact fun r c => by rw [State.memWriteList_fb]
  · exact ⟨State.memWriteList_key .., State.memWriteList_fault .., State.memWriteList_params .., State.memWriteList_draws ..⟩

/-- The three digits of a byte have its value (rule R193). -/
theorem toNat_digits (b : Byte) : 100 * (BitVec.ofNat 8 (b.toNat / 100)).toNat
    + 10 * (BitVec.ofNat 8 (b.toNat / 10 % 10)).toNat + (BitVec.ofNat 8 (b.toNat % 10)).toNat = b.toNat := by
  have := b.isLt
  simp only [BitVec.toNat_ofNat]
  omega

theorem toNat_digit_le (n : Nat) : (BitVec.ofNat 8 (n % 10)).toNat ≤ 9 := by
  rw [BitVec.toNat_ofNat]
  omega

/-- Settles O44: the three bytes are the digits of rule R193. -/
theorem bcdStoresTheDecimalDigits : Obligations.BcdStoresTheDecimalDigits := by
  intro x s h hm
  refine ⟨_, exec_ldBVx_of_inMemory x hm, ?_, ?_, ?_, storeFrame_memWriteList s rfl⟩
  all_goals simp only [memRead_memWriteList_digits x h hm, byteAfterDigits]
  · simpa using toNat_digits (s.getV x)
  · simpa using toNat_digit_le ((s.getV x).toNat / 10)
  · simpa using toNat_digit_le (s.getV x).toNat

/-- Settles O45: the bytes stored are the registers of the block in order. -/
theorem registerBlockIsStored : Obligations.RegisterBlockIsStored := by
  intro x s h hm
  exact ⟨_, exec_ldMemVx_of_inMemory hm, fun r hr => State.memRead_storedBlock h _ x r hr hm,
    storeFrame_memWriteList s (length_storedBlock s x)⟩

/-- Settles O46: the registers loaded are those of the block. -/
theorem registerBlockIsLoaded : Obligations.RegisterBlockIsLoaded := by
  intro x s hm
  refine ⟨_, exec_ldVxMem_of_inMemory hm, fun r hr => ?_, fun r hr => ?_, registersFrame_loadRegs s x⟩
  · rw [State.getV_loadRegs, if_pos ((mem_blockRegs x r).2 hr)]
  · rw [State.getV_loadRegs, if_neg (mt (mem_blockRegs x r).1 (not_le_of_gt hr))]

/-! ### The `load` port (rule R303) -/

theorem loadPort_of_fits {image : List Byte} (h : image.length ≤ Config.memSize) (s : State) :
    loadPort image s = .next (s.memWriteList 0 image) :=
  if_pos (decide_eq_true h)

theorem loadPort_of_too_long {image : List Byte} (h : Config.memSize < image.length) (s : State) :
    loadPort image s = .fault (.programTooLarge image.length) :=
  if_neg (by simpa [imageWellFormed] using h)

theorem Session.apply_load_of_open {z : Session} (h : z.loadOpen = true) (image : List Byte) :
    z.apply (.load image) = Session.lift true (loadPort image z.core) :=
  if_pos h

theorem Session.apply_load_of_closed {z : Session} (h : z.loadOpen = false) (image : List Byte) :
    z.apply (.load image) = .refused .loadOutsideWindow :=
  if_neg (by rw [h]; decide)

/-- Ticks, key writes and observations leave the load window as it was. -/
theorem Session.loadOpen_of_quiet_event {k : Option Key} {e : Event} (he : e ∈ [Event.tick, .key k, .observe])
    {z z' : Session} (h : z.apply e = .next z') : z'.loadOpen = z.loadOpen := by
  simp only [List.mem_cons, List.not_mem_nil, or_false] at he
  rcases he with rfl | rfl | rfl
  all_goals cases h; rfl

/-- Settles O56: the bytes are those of `State.memWriteList`, and the window is `Session.apply`'s. -/
theorem loadCopiesTheImage : Obligations.LoadCopiesTheImage := by
  intro image z
  refine ⟨fun hopen hwf hlen => ?_, fun hopen hlen => ?_, fun h => Session.apply_load_of_closed h image, ?_, ?_,
    fun k e he z' h => Session.loadOpen_of_quiet_event he h⟩
  · refine ⟨{ core := z.core.memWriteList 0 image, loadOpen := true }, ?_, fun a ha => ?_, fun a ha => ?_, rfl,
      State.memWriteList_eq ..⟩
    · rw [Session.apply_load_of_open hopen, loadPort_of_fits hlen]
      rfl
    · rw [← State.memRead_memWriteList_inside image hwf 0 a ha (by simpa using hlen), Nat.zero_add]
    · exact State.memRead_memWriteList_outside image z.core 0 (.inr (by simpa using ha))
  · rw [Session.apply_load_of_open hopen, loadPort_of_too_long hlen]
    rfl
  · exact fun z' h => Session.apply_load_of_closed (Session.apply_step_eq_next h).2 image
  · rintro z' ⟨⟩
    rfl

end Sys2Proof.Machine

/-! PROOFS. Logic, subtraction, shifts and random (spec/41_load_alu.md), and the timer instructions
(spec/44_timers_keys.md section 1): each writes the registers it names, and reads them in the order of rule R160. -/

namespace Sys2Proof.Machine

/-! ### Logic and random (rules R164 to R166 and R175) -/

/-- Settles O36: each of the three is one register write, of a value that is the operation bit by bit. -/
theorem logicOperatesBitByBit : Obligations.LogicOperatesBitByBit := by
  intro x y s
  refine ⟨⟨_, rfl, fun b => ?_, registersFrame_setV s x _⟩, ⟨_, rfl, fun b => ?_, registersFrame_setV s x _⟩,
    ⟨_, rfl, fun b => ?_, registersFrame_setV s x _⟩⟩
  · rw [State.getV_setV_same, BitVec.getLsbD_or]
  · rw [State.getV_setV_same, BitVec.getLsbD_and]
  · rw [State.getV_setV_same, BitVec.getLsbD_xor]

/-- Settles O42: a draw advances the count alone, and the register written holds the byte under the mask. -/
theorem randomIsADrawUnderTheMask : Obligations.RandomIsADrawUnderTheMask := by
  intro x nn s
  have hx : (s.draw.2.setV x (s.draw.1 &&& nn)).getV x = Config.freeByte s.draws &&& nn := State.getV_setV_same _ x _
  refine ⟨_, rfl, hx, fun b hb => ?_, rfl, registersFrame_setV s x _⟩
  rw [hx, BitVec.getLsbD_and, hb, Bool.and_false]

/-! ### Subtraction (rules R168, R170 and R173) -/

theorem greaterFlag_eq (a b : Byte) : greaterFlag a b = if a.toNat > b.toNat then 1 else 0 :=
  flagByte_decide _

theorem toNat_sub8 (a b : Byte) : (sub8 a b).toNat = (256 + a.toNat - b.toNat) % 256 := by
  have := b.isLt
  rw [sub8, BitVec.toNat_sub]
  congr 1
  omega

section Subtract

variable {x a b : Reg} (s : State) (f : Byte)

/-- The register that the subtraction writes, where `VF` is not read: the difference of the old values. -/
theorem getV_subtractAfterFlag_result (ha : a ≠ VF) (hb : b ≠ VF) :
    (s.subtractAfterFlag f x a b).getV x = sub8 (s.getV a) (s.getV b) := by
  rw [State.getV_subtractAfterFlag, if_pos rfl, if_neg ha, if_neg hb]

/-- `VF` keeps the flag when it is not the destination. -/
theorem getV_subtractAfterFlag_flag (hx : x ≠ VF) : (s.subtractAfterFlag f x a b).getV VF = f := by
  rw [State.getV_subtractAfterFlag, if_neg hx.symm, if_pos rfl]

end Subtract

/-- Settles O38: neither operand is `VF`, so the flag written first is not read. -/
theorem subtractSetsTheStrictComparison : Obligations.SubtractSetsTheStrictComparison := by
  intro x y s hx hy
  refine ⟨⟨_, rfl, ?_, ?_, registersFrame_subtractAfterFlag s ..⟩, ⟨_, rfl, ?_, ?_, registersFrame_subtractAfterFlag s ..⟩⟩
  · rw [getV_subtractAfterFlag_flag s _ hx, greaterFlag_eq]
  · rw [getV_subtractAfterFlag_result s _ hx hy, toNat_sub8]
  · rw [getV_subtractAfterFlag_flag s _ hx, greaterFlag_eq]
  · rw [getV_subtractAfterFlag_result s _ hy hx, toNat_sub8]

/-- Settles O39: an operand that is `VF` is read as the flag just written (decision D6). -/
theorem subtractAliasForms : Obligations.SubtractAliasForms := by
  intro r s hr
  have frame (f : Byte) (a b : Reg) : RegistersFrame [VF] s (s.subtractAfterFlag f VF a b) :=
    (registersFrame_subtractAfterFlag s f VF a b).mono (by simp)
  refine ⟨⟨_, rfl, ?_, ?_, registersFrame_subtractAfterFlag s ..⟩, ⟨_, rfl, ?_, frame ..⟩, ⟨_, rfl, ?_, frame ..⟩,
    ⟨_, rfl, ?_, ?_, registersFrame_subtractAfterFlag s ..⟩, ⟨_, rfl, ?_, frame ..⟩, ⟨_, rfl, ?_, frame ..⟩⟩
  all_goals simp only [State.getV_subtractAfterFlag, greaterFlag_eq, sub8, if_true, hr, hr.symm, if_false,
    BitVec.sub_self, BitVec.ofNat_eq_ofNat]

/-! ### Shifts (rules R169, R171 and R173) -/

/-- A bit of a byte, taken as a flag, is the digit of its number. -/
theorem toNat_flagByte_getLsbD (b : Byte) (i : Nat) : (flagByte (b.getLsbD i)).toNat = b.toNat / 2 ^ i % 2 := by
  rw [BitVec.getLsbD, Nat.testBit_eq_decide_div_mod_eq, flagByte_decide]
  split
  · next h => exact h.symm
  · next h => exact (Nat.mod_two_ne_one.1 h).symm

theorem toNat_lowBitFlag (b : Byte) : (lowBitFlag b).toNat = b.toNat % 2 := by
  rw [lowBitFlag, toNat_flagByte_getLsbD, Nat.pow_zero, Nat.div_one]

theorem toNat_highBitFlag (b : Byte) : (highBitFlag b).toNat = b.toNat / 128 := by
  have := b.isLt
  rw [highBitFlag, toNat_flagByte_getLsbD]
  omega

theorem toNat_shr8 (b : Byte) : (shr8 b).toNat = b.toNat / 2 := by
  simp [shr8, Nat.shiftRight_eq_div_pow]

theorem toNat_shl8 (b : Byte) : (shl8 b).toNat = b.toNat * 2 % 256 := by
  simp [shl8, Nat.shiftLeft_eq]

section Shift

variable {x y : Reg} {s : State} {src : Byte} (flag shift : Byte → Byte)

theorem getV_shift_result (hx : x ≠ VF) (hsrc : src = if s.params.shiftSrc = .vy then s.getV y else s.getV x) :
    ((s.shiftSource x y).shiftAfterFlag x flag shift).getV x = shift src := by
  rw [s.getV_shift x y x flag shift (hsrc.trans (s.getV_shiftSource x y).symm), if_pos rfl, if_neg hx]

theorem getV_shift_flag (hx : x ≠ VF) (hsrc : src = if s.params.shiftSrc = .vy then s.getV y else s.getV x) :
    ((s.shiftSource x y).shiftAfterFlag x flag shift).getV VF = flag src := by
  rw [s.getV_shift x y VF flag shift (hsrc.trans (s.getV_shiftSource x y).symm), if_neg hx.symm, if_pos rfl]

/-- A shift of `VF` shifts the flag just written (decision D6). -/
theorem getV_shift_VF (hsrc : src = if s.params.shiftSrc = .vy then s.getV y else s.getV VF) :
    ((s.shiftSource VF y).shiftAfterFlag VF flag shift).getV VF = shift (flag src) := by
  rw [s.getV_shift VF y VF flag shift (hsrc.trans (s.getV_shiftSource VF y).symm), if_pos rfl, if_pos rfl]

end Shift

/-- Settles O40: `VF` is not the destination, so the flag written first is not what is shifted. -/
theorem shiftsMoveOnePosition : Obligations.ShiftsMoveOnePosition := by
  intro x y s src hx hsrc
  refine ⟨⟨_, rfl, ?_, ?_, registersFrame_shift s ..⟩, ⟨_, rfl, ?_, ?_, registersFrame_shift s ..⟩⟩
  · rw [getV_shift_flag _ _ hx hsrc, toNat_lowBitFlag]
  · rw [getV_shift_result _ _ hx hsrc, toNat_shr8]
  · rw [getV_shift_flag _ _ hx hsrc, toNat_highBitFlag]
  · rw [getV_shift_result _ _ hx hsrc, toNat_shl8]

/-- Settles O41: what is shifted is the flag, 0 or 1. -/
theorem shiftAliasForms : Obligations.ShiftAliasForms := by
  intro y s src hsrc
  have frame (flag shift : Byte → Byte) : RegistersFrame [VF] s ((s.shiftSource VF y).shiftAfterFlag VF flag shift) :=
    (registersFrame_shift s VF y flag shift).mono (by simp)
  refine ⟨⟨_, rfl, ?_, frame ..⟩, ⟨_, rfl, ?_, frame ..⟩⟩
  · rw [getV_shift_VF _ _ hsrc]
    apply BitVec.eq_of_toNat_eq
    rw [toNat_shr8, toNat_lowBitFlag]
    exact Nat.div_eq_of_lt (Nat.mod_lt _ (by decide))
  · have := src.isLt
    rw [getV_shift_VF _ _ hsrc, toNat_shl8, toNat_highBitFlag]
    omega

/-! ### Timers (rules R230 to R232) -/

/-- Settles O53: one register write and two timer writes. -/
theorem timerInstructionsMoveOneByte : Obligations.TimerInstructionsMoveOneByte :=
  fun x s => ⟨⟨_, rfl, s.getV_setV_same x _, registersFrame_setV s x _⟩, rfl, rfl⟩

end Sys2Proof.Machine

/-! PROOFS. The framebuffer (spec/43_display.md): what `00E0` and `Dxyn` leave, `Dxyn` twice, and `Dxyn` under the two
edge policies. -/

namespace Sys2Proof.Machine

/-! ### Clearing the screen (rule R210) -/

/-- Settles O49: a clear frame has no lit pixel. -/
theorem clearScreenClearsEveryPixel : Obligations.ClearScreenClearsEveryPixel :=
  fun _ => ⟨_, rfl, Frame.pixel_clear, fun _ _ => rfl, rfl, ⟨rfl, rfl, rfl, rfl⟩, fun _ => rfl, rfl, rfl, rfl, rfl⟩

/-! ### Drawing a sprite (rules R212 and R213) -/

/-- The set `S` of rule R213 for `Dxyn`: the placed 1-bits of its sprite. -/
def State.sprite (s : State) (x y : Reg) (n : Fin 16) (r : Fin 32) (c : Fin 64) : Bool :=
  spriteCovers s s.i.toNat n.val ((s.getV x).toNat % 64) ((s.getV y).toNat % 32) r c

/-- The loops of `Dxyn` leave the frame xor `S`, and `hit` says whether the frame met `S`. -/
theorem State.drawn_spec (s : State) (x y : Reg) (n : Fin 16) : DrawnSoFar s.fb (s.sprite x y n) (s.drawn x y n) :=
  drawSprite_spec _ _ n.val _ _ (by omega) s.fb

theorem collisionFlag_eq_one_iff (hit : Bool) : collisionFlag hit = 1 ↔ hit = true := by
  cases hit <;> decide

theorem collisionFlag_zero_or_one (hit : Bool) : collisionFlag hit = 0 ∨ collisionFlag hit = 1 := by
  cases hit <;> decide

theorem pixelsFrame_setFb_setV (s : State) (f : Frame) (x : Reg) (b : Byte) : PixelsFrame [x] s ((s.setFb f).setV x b) :=
  ⟨fun _ hr => State.getV_setV_of_ne _ (List.ne_of_not_mem_cons hr) b, rfl, ⟨rfl, rfl, rfl, rfl⟩, fun _ => rfl,
    rfl, rfl, rfl, rfl⟩

/-- `t` is what drawing the sprite in `s` leaves (rules R212 and R213): the frame xor `S`, and `VF` whether they met. -/
structure Draws (x y : Reg) (n : Fin 16) (s t : State) : Prop where
  pixel : ∀ r c, t.fb.pixel r c = (s.fb.pixel r c ^^ s.sprite x y n r c)
  flag : t.getV VF = 1 ↔ ∃ r c, s.fb.pixel r c = true ∧ s.sprite x y n r c = true
  flag_range : t.getV VF = 0 ∨ t.getV VF = 1
  frame : PixelsFrame [VF] s t

/-- `Dxyn` draws its sprite when the sprite's bytes lie in memory. -/
theorem exec_drw_draws (x y : Reg) {n : Fin 16} {s : State} (h : n.val = 0 ∨ InMemory s n.val) :
    ∃ t, exec (.drw x y n) s = .next t ∧ Draws x y n s t := by
  obtain ⟨hpixel, hhit⟩ := s.drawn_spec x y n
  refine ⟨_, congrArg Host.Outcome.next (s.withBlock_of_inside h _), hpixel, ?_, ?_, pixelsFrame_setFb_setV s ..⟩
  · rw [State.getV_setV_same, collisionFlag_eq_one_iff, hhit]
  · rw [State.getV_setV_same]
    exact collisionFlag_zero_or_one _

/-- Settles O50: the parts of `Draws`. -/
theorem drawIsExclusiveOrWithTheSprite : Obligations.DrawIsExclusiveOrWithTheSprite := by
  intro x y n s h
  obtain ⟨t, ht, pixel, flag, range, frame⟩ := exec_drw_draws x y h
  exact ⟨t, ht, pixel, flag, range, frame⟩

/-! ### Drawing twice (rule R213 (c)) -/

/-- The sprite and its place depend on `I`, memory, the edge policy and the two position registers only. -/
theorem State.sprite_congr {s t : State} {x y : Reg} (hx : t.getV x = s.getV x) (hy : t.getV y = s.getV y) (hi : t.i = s.i)
    (hmem : SameBytes s t) (hparams : t.params = s.params) (n : Fin 16) : t.sprite x y n = s.sprite x y n := by
  funext r c
  simp only [State.sprite, spriteCovers, hx, hy, hi, hmem _, hparams]

/-- After a draw whose position is not taken from `VF` the same sprite has the same place, whatever `pc` is. -/
theorem Draws.sprite_eq {x y : Reg} {n : Fin 16} {s t : State} (h : Draws x y n s t) (hx : x ≠ VF) (hy : y ≠ VF)
    (pc' : Word) : State.sprite { t with pc := pc' } x y n = s.sprite x y n := by
  obtain ⟨regs, _, ⟨hi, _⟩, bytes, _, _, params, _⟩ := h.frame
  exact State.sprite_congr (regs x (by simpa using hx)) (regs y (by simpa using hy)) hi bytes params n

/-- Settles O51: the frame xor `S` twice is the frame; a pixel of `S` is lit after the first draw when it was not
before. -/
theorem drawingTwiceRestoresTheFramebuffer : Obligations.DrawingTwiceRestoresTheFramebuffer := by
  intro x y n pc' s t u hx hy h ht hu
  have first : Draws x y n s t := of_exec_eq_next ht (exec_drw_draws x y h)
  obtain ⟨_, _, ⟨hi, _⟩, _⟩ := first.frame
  have second : Draws x y n { t with pc := pc' } u :=
    of_exec_eq_next hu (exec_drw_draws x y (by simpa only [InMemory, hi] using h))
  have sprite := first.sprite_eq hx hy pc'
  have flag : u.getV VF = 1 ↔ ∃ r c, s.fb.pixel r c = false ∧ s.sprite x y n r c = true := by
    rw [second.flag, sprite]
    refine exists_congr fun r => exists_congr fun c => and_congr_left fun hc => ?_
    rw [first.pixel, hc, Bool.xor_true, Bool.not_eq_true']
  refine ⟨fun r c => ?_, flag, fun h0 => flag.trans ?_⟩
  · rw [second.pixel, sprite, first.pixel, Bool.xor_assoc, Bool.xor_self, Bool.xor_false]
  · have nohit : ¬ ∃ r c, s.fb.pixel r c = true ∧ s.sprite x y n r c = true := by
      rw [← first.flag, h0]
      decide
    refine exists_congr fun r => exists_congr fun c => and_iff_right_of_imp fun hc => ?_
    exact Bool.eq_false_of_not_eq_true fun hp => nohit ⟨r, c, hp, hc⟩

/-! ### The edge policies on the screen (rule R314) -/

/-- A raw position on the screen is placed there under both policies. -/
theorem place_of_on_screen (edge : DrawEdge) {px py : Nat} (hx : px < 64) (hy : py < 32) :
    place edge px py = some (Fin.ofNat 32 py, Fin.ofNat 64 px) := by
  cases edge with
  | wrap => rfl
  | clip => exact if_neg (by omega)

theorem drawPixel_edge (edge edge' : DrawEdge) (b : Byte) (c : Nat) {px py : Nat} (hx : px < 64) (hy : py < 32)
    (acc : Frame × Bool) : drawPixel edge b c px py acc = drawPixel edge' b c px py acc := by
  simp only [drawPixel, place_of_on_screen _ hx hy]

theorem drawRow_edge (edge edge' : DrawEdge) (b : Byte) {x0 py : Nat} (hx : x0 ≤ 56) (hy : py < 32)
    (acc : Frame × Bool) : drawRow edge b x0 py acc = drawRow edge' b x0 py acc := by
  refine List.foldl_ext _ _ _ fun acc c hc => ?_
  rw [List.mem_range] at hc
  exact drawPixel_edge edge edge' b c (by omega) hy acc

theorem drawSprite_edge (edge edge' : DrawEdge) (row : Nat → Byte) {n x0 y0 : Nat} (hx : x0 ≤ 56) (hy : y0 + n ≤ 32)
    (f : Frame) : drawSprite edge row n x0 y0 f = drawSprite edge' row n x0 y0 f := by
  refine List.foldl_ext _ _ _ fun acc r hr => ?_
  rw [List.mem_range] at hr
  exact drawRow_edge edge edge' (row r) hx (by omega) acc

/-- The parameters with another edge policy. -/
def State.withEdge (s : State) (edge : DrawEdge) : State := { s with params := { s.params with drawEdge := edge } }

theorem State.drawn_withEdge {s : State} {x y : Reg} {n : Fin 16} (hx : (s.getV x).toNat % 64 ≤ 56)
    (hy : (s.getV y).toNat % 32 + n.val ≤ 32) (edge : DrawEdge) : (s.withEdge edge).drawn x y n = s.drawn x y n :=
  drawSprite_edge edge s.params.drawEdge _ hx hy s.fb

/-- Settles O52: the bounds check does not look at the policy, and on the screen the loops do not either. -/
theorem edgePoliciesAgreeOnTheScreen : Obligations.EdgePoliciesAgreeOnTheScreen := by
  intro x y n edge s t hx hy ht
  show exec _ (s.withEdge edge) = _
  cases hm : memFaultOf s n.val with
  | some f =>
    have faulted : t = s.raise f := Host.Outcome.next.inj (ht.symm.trans (exec_of_faultOf_eq_some hm))
    rw [faulted]
    exact exec_of_faultOf_eq_some (s := s.withEdge edge) hm
  | none =>
    have drawn : t = (s.setFb (s.drawn x y n).1).setV VF (collisionFlag (s.drawn x y n).2) :=
      Host.Outcome.next.inj (ht.symm.trans (congrArg Host.Outcome.next (State.withBlock_of_no_memFault hm _)))
    rw [drawn]
    refine (congrArg Host.Outcome.next (State.withBlock_of_no_memFault (s := s.withEdge edge) hm _)).trans ?_
    rw [State.drawn_withEdge hx hy]
    rfl

end Sys2Proof.Machine
